-- ==== Sys2Proof/Word.lean ====
section
/-! DEFINITION. The word types of the command and response channels (30_encoding.md R60, R61). -/

namespace Sys2Proof

/-- A command, response or register word: 64 bits (R9, R60). -/
abbrev Word := BitVec 64

/-- A message byte (R61, field `DATA`). -/
abbrev Byte := BitVec 8

end Sys2Proof
end

