-- ==== Sys2Proof/Config.lean ====
section
/-! DEFINITION. What is fixed for an instance of the block: the constants of 00_scope.md R7 and R8, the CRC
parameter set of R2, and the instance mode of R10. -/

namespace Sys2Proof

/-- `MAX_WIDTH`, the largest legal `bit_count` (R7). -/
def maxWidth : Nat := 64

/-- `MAX_BITS`, the largest count PROCESS_BITS accepts (R8). -/
def maxBits : Nat := 8

/-- The parameter registers `WIDTH`, `POLY`, `INIT`, `XOROUT`, `REFIN`, `REFOUT` (10_state.md R23 to R31), and
the shape of `FIXED_PARAMS = (W, P, I, X, RI, RO)` (R10). -/
structure Params where
  /-- `WIDTH`: 7 bits of storage (R23). -/
  width  : BitVec 7
  /-- `POLY` (R25). -/
  poly   : Word
  /-- `INIT`, in the unreflected domain (R28). -/
  init   : Word
  /-- `XOROUT` (R29). -/
  xorout : Word
  /-- `REFIN` (R30). -/
  refin  : Bool
  /-- `REFOUT` (R31). -/
  refout : Bool
  deriving DecidableEq, Repr

/-- `MODE` with its `FIXED_PARAMS` (R10): an elaboration-time parameter of the instance. -/
inductive Mode where
  /-- The runtime engine: CONFIGURE loads the parameters. -/
  | programmable
  /-- The compile-time engine: the parameters are constants of elaboration. -/
  | fixed (params : Params)
  deriving DecidableEq, Repr

end Sys2Proof
end

