-- ==== Sys2Proof/Syntax.lean ====
section
/-! DEFINITION. The commands: one constructor for each row of spec/opcode_table.json (30_encoding.md R68), with
the operands of R67 at the widths of their fields (R61, R62). -/

namespace Sys2Proof

/-- A legal command with its operands. Every value of an operand is a legal operand value of the encoding
(R74: a value in a defined field is never an encoding error), so every term is well formed. -/
inductive Instr where
  /-- CONFIGURE (R110): `w = WIDTH_F`, `ri = REFIN_F`, `ro = REFOUT_F`, and the operand words `POLY_W`, `INIT_W`, `XOR_W`. -/
  | configure (w : BitVec 7) (ri ro : Bool) (p ini x : Word)
  /-- RESET (R112). -/
  | reset
  /-- RESET_INIT (R113): `r = NEWREM_W`. -/
  | resetInit (r : Word)
  /-- PROCESS_BIT (R120): `b = BIT`. -/
  | processBit (b : Bool)
  /-- PROCESS_BITS (R121): `v = DATA`, `n = NBITS`. -/
  | processBits (v : Byte) (n : BitVec 4)
  /-- PROCESS_BYTE (R122): `byte = DATA`. -/
  | processByte (byte : Byte)
  /-- CHECKSUM (R130). -/
  | checksum
  /-- GET_TRUNCATED_POLYNOMIAL (R131). -/
  | getTruncatedPolynomial
  /-- GET_INITIAL_REMAINDER (R132). -/
  | getInitialRemainder
  /-- GET_FINAL_XOR_VALUE (R133). -/
  | getFinalXorValue
  /-- GET_REFLECT_INPUT (R134). -/
  | getReflectInput
  /-- GET_REFLECT_REMAINDER (R135). -/
  | getReflectRemainder
  /-- GET_INTERIM_REMAINDER (R136). -/
  | getInterimRemainder
  /-- GET_BIT_COUNT (R137). -/
  | getBitCount
  deriving DecidableEq, Repr

end Sys2Proof
end

