-- ==== Sys2Proof/WellFormed.lean ====
section
/-! DEFINITION. Well-formedness. A term of `Instr` has no ill-formed value: its operands have the widths of their
fields, and R74 says that no value of a field is an encoding error. What can be ill formed is a line of SOURCE, whose
operands are numbers of any size: the assembler refuses an operand that does not fit its field (30_encoding.md R78). -/

namespace Sys2Proof

/-- A line of assembler source (R78, R79, R80): the mnemonics of R79 with their operands as written, and the one
pseudo-instruction `process_bytes PTR, LEN`. A boolean operand is the number 0 or 1 (`false`, `true`). -/
inductive AsmLine where
  | configure (w poly init xorout refin refout : Nat)
  | reset
  | resetInit (init : Nat)
  | processBit (b : Nat)
  | processBits (v n : Nat)
  | processByte (byte : Nat)
  | processBytes (ptr len : Nat)
  | checksum
  | getTruncatedPolynomial
  | getInitialRemainder
  | getFinalXorValue
  | getReflectInput
  | getReflectRemainder
  | getInterimRemainder
  | getBitCount
  deriving DecidableEq, Repr

/-- The operand checks of R78: `W <= 127`, a boolean operand at most 1, `V` and `BYTE` at most 255, `N <= 15`, a word
operand below `2^64`. `PTR` and `LEN` of the pseudo-instruction are the host's own numbers and have no field (R80). -/
def AsmLine.wellFormed : AsmLine → Bool
  | .configure w p i x ri ro =>
    w ≤ 127 && p < 2 ^ 64 && i < 2 ^ 64 && x < 2 ^ 64 && ri ≤ 1 && ro ≤ 1
  | .reset => true
  | .resetInit r => r < 2 ^ 64
  | .processBit b => b ≤ 1
  | .processBits v n => v ≤ 255 && n ≤ 15
  | .processByte b => b ≤ 255
  | .processBytes _ _ => true
  | .checksum => true
  | .getTruncatedPolynomial => true
  | .getInitialRemainder => true
  | .getFinalXorValue => true
  | .getReflectInput => true
  | .getReflectRemainder => true
  | .getInterimRemainder => true
  | .getBitCount => true

end Sys2Proof
end

