-- ==== Sys2Proof/Decode.lean ====
section
/-! DEFINITION. Command words: field extraction (30_encoding.md R67), length (R63), the opcode map (R68), the total
decoder (R69 to R71), and the encoder (R79). -/

namespace Sys2Proof

/-! ### Header fields (R61, R67) -/

/-- `OP = h[3:0]`. -/
def fieldOp (h : Word) : BitVec 4 := h.extractLsb' 0 4
/-- `DATA = h[15:8]`. -/
def fieldData (h : Word) : Byte := h.extractLsb' 8 8
/-- `BIT = h[8]`. -/
def fieldBit (h : Word) : Bool := h.getLsbD 8
/-- `NBITS = h[19:16]`. -/
def fieldNbits (h : Word) : BitVec 4 := h.extractLsb' 16 4
/-- `WIDTH_F = h[26:20]`. -/
def fieldWidth (h : Word) : BitVec 7 := h.extractLsb' 20 7
/-- `REFIN_F = h[27]`. -/
def fieldRefin (h : Word) : Bool := h.getLsbD 27
/-- `REFOUT_F = h[28]`. -/
def fieldRefout (h : Word) : Bool := h.getLsbD 28
/-- `NEWINIT = h[29]`. -/
def fieldNewinit (h : Word) : Bool := h.getLsbD 29

/-- The number `k` of operand words, from the header alone and before any legality check (R63). -/
def operandCount (h : Word) : Nat :=
  if fieldOp h = 0x1#4 then 3
  else if fieldOp h = 0x2#4 then (if fieldNewinit h then 1 else 0)
  else 0

/-- Does `ws` hold a header and all its operand words? (R63: a command is complete once its `k` operand words have
arrived.) -/
def isComplete (ws : List Word) : Bool :=
  match ws with
  | [] => false
  | h :: ops => operandCount h ≤ ops.length

/-! ### The opcode map (R68) -/

/-- The rows of the opcode map, by mnemonic. -/
inductive Mnemonic where
  | configure | reset | resetInit | processBit | processBits | processByte | checksum
  | getTruncatedPolynomial | getInitialRemainder | getFinalXorValue | getReflectInput
  | getReflectRemainder | getInterimRemainder | getBitCount
  deriving DecidableEq, Repr

/-- One row of R68: a header selects it when `(h & mask) = pattern`. -/
structure OpcodeRow where
  mnemonic : Mnemonic
  /-- The column `match` of R68. -/
  pattern  : Word
  /-- The column `mask` of R68: every bit but the row's fields. -/
  mask     : Word
  deriving DecidableEq, Repr

/-- The opcode map of R68. -/
def opcodeMap : List OpcodeRow :=
  [ ⟨.configure,              0x0000000000000001#64, 0xFFFFFFFFE00FFFFF#64⟩,
    ⟨.reset,                  0x0000000000000002#64, 0xFFFFFFFFFFFFFFFF#64⟩,
    ⟨.resetInit,              0x0000000020000002#64, 0xFFFFFFFFFFFFFFFF#64⟩,
    ⟨.processBit,             0x0000000000000003#64, 0xFFFFFFFFFFFFFEFF#64⟩,
    ⟨.processBits,            0x0000000000000004#64, 0xFFFFFFFFFFF000FF#64⟩,
    ⟨.processByte,            0x0000000000000005#64, 0xFFFFFFFFFFFF00FF#64⟩,
    ⟨.checksum,               0x0000000000000006#64, 0xFFFFFFFFFFFFFFFF#64⟩,
    ⟨.getTruncatedPolynomial, 0x0000000000000007#64, 0xFFFFFFFFFFFFFFFF#64⟩,
    ⟨.getInitialRemainder,    0x0000000000000008#64, 0xFFFFFFFFFFFFFFFF#64⟩,
    ⟨.getFinalXorValue,       0x0000000000000009#64, 0xFFFFFFFFFFFFFFFF#64⟩,
    ⟨.getReflectInput,        0x000000000000000A#64, 0xFFFFFFFFFFFFFFFF#64⟩,
    ⟨.getReflectRemainder,    0x000000000000000B#64, 0xFFFFFFFFFFFFFFFF#64⟩,
    ⟨.getInterimRemainder,    0x000000000000000C#64, 0xFFFFFFFFFFFFFFFF#64⟩,
    ⟨.getBitCount,            0x000000000000000D#64, 0xFFFFFFFFFFFFFFFF#64⟩ ]

/-- `(h & mask) = match` (R68). -/
def OpcodeRow.selects (r : OpcodeRow) (h : Word) : Bool := (h &&& r.mask) == r.pattern

/-- The row a header selects, if any (R69). -/
def selectRow (h : Word) : Option OpcodeRow := opcodeMap.find? fun r => r.selects h

/-! ### The decoder (R69 to R71) -/

/-- Why a list of words is no command. The first two are the illegal headers of R70 and R71; the other two say that the
list does not hold exactly one command's words (R63). -/
inductive DecodeError where
  /-- The list is empty. -/
  | noHeader
  /-- Opcode 0x0, 0xE or 0xF (R70). -/
  | reservedOpcode (op : BitVec 4)
  /-- A defined opcode with a nonzero bit outside its row's fields (R71). -/
  | reservedBits (op : BitVec 4)
  /-- A legal header with more or fewer than its `k` operand words (R63). -/
  | operandWords
  deriving DecidableEq, Repr

/-- The reserved opcodes (R70). -/
def reservedOp (op : BitVec 4) : Bool := op == 0x0#4 || op == 0xE#4 || op == 0xF#4

/-- A row without operand words (format H, R64): the list of operand words must be empty. -/
def noOperand (i : Instr) : List Word → Except DecodeError Instr
  | [] => .ok i
  | _ => .error .operandWords

/-- Operand assembly (R67) for a header `h` that selects the row `m`. -/
def assembleOperands (m : Mnemonic) (h : Word) (ops : List Word) : Except DecodeError Instr :=
  match m with
  | .configure =>
    match ops with
    | [p, i, x] => .ok (.configure (fieldWidth h) (fieldRefin h) (fieldRefout h) p i x)
    | _ => .error .operandWords
  | .reset => noOperand .reset ops
  | .resetInit =>
    match ops with
    | [r] => .ok (.resetInit r)
    | _ => .error .operandWords
  | .processBit => noOperand (.processBit (fieldBit h)) ops
  | .processBits => noOperand (.processBits (fieldData h) (fieldNbits h)) ops
  | .processByte => noOperand (.processByte (fieldData h)) ops
  | .checksum => noOperand .checksum ops
  | .getTruncatedPolynomial => noOperand .getTruncatedPolynomial ops
  | .getInitialRemainder => noOperand .getInitialRemainder ops
  | .getFinalXorValue => noOperand .getFinalXorValue ops
  | .getReflectInput => noOperand .getReflectInput ops
  | .getReflectRemainder => noOperand .getReflectRemainder ops
  | .getInterimRemainder => noOperand .getInterimRemainder ops
  | .getBitCount => noOperand .getBitCount ops

/-- The decoder, total on every list of words (R69): the header, then its operand words. -/
def decode (ws : List Word) : Except DecodeError Instr :=
  match ws with
  | [] => .error .noHeader
  | h :: ops =>
    match selectRow h with
    | some r => assembleOperands r.mnemonic h ops
    | none =>
      if reservedOp (fieldOp h) then .error (.reservedOpcode (fieldOp h))
      else .error (.reservedBits (fieldOp h))

/-! ### The encoder (R79) -/

/-- A single bit as a word. -/
def bitWord (b : Bool) : Word := if b then 1#64 else 0#64

/-- The header word of a command (R79). -/
def encodeHeader (i : Instr) : Word :=
  match i with
  | .configure w ri ro _ _ _ =>
    0x1#64 ||| (w.setWidth 64 <<< 20) ||| (bitWord ri <<< 27) ||| (bitWord ro <<< 28)
  | .reset => 0x2#64
  | .resetInit _ => 0x20000002#64
  | .processBit b => 0x3#64 ||| (bitWord b <<< 8)
  | .processBits v n => 0x4#64 ||| (v.setWidth 64 <<< 8) ||| (n.setWidth 64 <<< 16)
  | .processByte byte => 0x5#64 ||| (byte.setWidth 64 <<< 8)
  | .checksum => 0x6#64
  | .getTruncatedPolynomial => 0x7#64
  | .getInitialRemainder => 0x8#64
  | .getFinalXorValue => 0x9#64
  | .getReflectInput => 0xA#64
  | .getReflectRemainder => 0xB#64
  | .getInterimRemainder => 0xC#64
  | .getBitCount => 0xD#64

/-- The operand words of a command (R62, R79). -/
def encodeOperands (i : Instr) : List Word :=
  match i with
  | .configure _ _ _ p ini x => [p, ini, x]
  | .resetInit r => [r]
  | .reset => []
  | .processBit _ => []
  | .processBits _ _ => []
  | .processByte _ => []
  | .checksum => []
  | .getTruncatedPolynomial => []
  | .getInitialRemainder => []
  | .getFinalXorValue => []
  | .getReflectInput => []
  | .getReflectRemainder => []
  | .getInterimRemainder => []
  | .getBitCount => []

/-- The words of a command: the header, then its operand words (R60). -/
def encode (i : Instr) : List Word := encodeHeader i :: encodeOperands i

/-- The `OP` field of a command's header (R68), which its response echoes (R75). -/
def Instr.op (i : Instr) : BitVec 4 :=
  match i with
  | .configure _ _ _ _ _ _ => 0x1#4
  | .reset => 0x2#4
  | .resetInit _ => 0x2#4
  | .processBit _ => 0x3#4
  | .processBits _ _ => 0x4#4
  | .processByte _ => 0x5#4
  | .checksum => 0x6#4
  | .getTruncatedPolynomial => 0x7#4
  | .getInitialRemainder => 0x8#4
  | .getFinalXorValue => 0x9#4
  | .getReflectInput => 0xA#4
  | .getReflectRemainder => 0xB#4
  | .getInterimRemainder => 0xC#4
  | .getBitCount => 0xD#4

/-! ### Words numbered as the opcode table numbers them -/

/-- The words of the instruction whose bits are the low `nbits` bits of `w`: bits 63:0 are the header, bits 127:64 the
first operand word, and so on, for as many operand words as the header asks for (R60, R63). Bits above `nbits` are 0. -/
def tableWords (nbits w : Nat) : List Word :=
  let v := w % 2 ^ nbits
  let h := BitVec.ofNat 64 v
  h :: (List.range (operandCount h)).map fun j => BitVec.ofNat 64 (v >>> (64 * (j + 1)))

/-- The instruction the decoder reads from the words of `tableWords`. -/
def decodeTableWord (nbits w : Nat) : Option Instr :=
  match decode (tableWords nbits w) with
  | .ok i => some i
  | .error _ => none

end Sys2Proof
end

