-- ==== Sys2Proof/Machine/State.lean ====
section
/-! DEFINITION. The state of one block with its host (10_state.md R20 to R39; 70 R160, R165, R168), as plain data. -/

namespace Sys2Proof.Machine

/-- A configured engine: the parameter registers and `REM` (R39, the fields that hold a value exactly when
`cfg_valid = 1`). The `ROM` is the function `table` of `WIDTH` and `POLY` (R33, R39; log 7). -/
structure Engine where
  /-- `WIDTH`, `POLY`, `INIT`, `XOROUT`, `REFIN`, `REFOUT`. -/
  params : Params
  /-- `REM`, 64 bits, in the unreflected domain (R20, R26). -/
  rem    : Word
  deriving DecidableEq, Repr

/-- The registers of one instance, by `MODE` (R10, the two columns of R37).
* `programmable none`: `CFG_VALID = 0`; no engine exists (R145) and every other register holds no value (R38, R39; log 2).
* `programmable (some e)`: `CFG_VALID = 1`.
* `fixed params rem`: `CFG_VALID` is hardwired to 1 and the parameter registers to `FIXED_PARAMS` (R22 to R31); only
  `REM` is stored. -/
inductive Block where
  | programmable (engine : Option Engine)
  | fixed (params : Params) (rem : Word)
  deriving DecidableEq, Repr

/-- A move of the host on the block's ports (R168, R169), one word offered or awaited or one assertion of `rst` (log 3). -/
inductive HostMove where
  /-- The host sends one command word on `cmd_data`, and holds it there until the block accepts it. -/
  | send (w : Word)
  /-- The host takes one response word on `rsp_data`, and waits for it until the block offers it. -/
  | take
  /-- The host asserts `rst` for at least one clock edge (R160). -/
  | rst
  deriving DecidableEq, Repr

/-- One instance and its host. -/
structure State where
  /-- The registers, with the instance parameters `MODE` and `FIXED_PARAMS` (R36: no step changes those two; log 1). -/
  block    : Block
  /-- `RSP_DEPTH`, an open instance parameter (R36, R165; log 1): no step changes it. -/
  rspDepth : Nat
  /-- The command buffer (R34): the words received of the command that is not yet complete, header first. -/
  cmdBuf   : List Word
  /-- The response queue (R34): the response words not yet taken, `RSP0` then `RSP1` of each response, oldest first (log 6). -/
  rspQueue : List Word
  /-- The MODEL's own: the host's moves still to come, in order (log 3). -/
  host     : List HostMove
  /-- The MODEL's own: the response words the host has taken, oldest first (log 9). -/
  received : List Word
  deriving DecidableEq, Repr

/-- Why no further step exists. None of these is an error of the hardware, which reports every error by a status and
goes on (R140): each is a point where the spec says the block waits for the host (log 5). All are SAFE: the model stops. -/
inductive Fault where
  /-- `step`: the host has no move left, the command buffer and the response queue are empty: the run is over (R170). -/
  | quiescent
  /-- `step`: the host has no move left and a command is pending for want of operand words (R165, I18 `stuck`). -/
  | pendingOperands
  /-- `step`: the host has no move left and a response has not been taken (R170, I18 `stuck`). -/
  | untakenResponse
  /-- `stepHost`: the next word would complete a command, the response queue is full, so `cmd_ready` stays low, and the
  host never takes a response (R165 "the block stalls", I18 `stuck`). -/
  | responseQueueFull
  /-- `stepHost`: the host waits for a response word, none is queued, and it sends nothing more (R169). -/
  | noResponseOffered
  deriving DecidableEq, Repr

/-- Why the model gives a step no meaning. -/
inductive Refusal where
  /-- `exec`: an instruction not modelled yet, by its mnemonic. SAFE. No arm answers it in this model. -/
  | notModelled (mnemonic : String)
  /-- `step`: the instance does not exist: a FIXED instance whose `FIXED_PARAMS` fail the check of R111 (R11, I17: "a
  model refuses it"), or `RSP_DEPTH = 0` (R165: at least 1). SAFE (log 11). -/
  | notElaborated
  deriving DecidableEq, Repr

/-- The instance right after power-on reset (R37), with no host move yet. -/
def State.powerOn (m : Mode) (depth : Nat) : State :=
  { block    := match m with
                | .programmable => .programmable none
                | .fixed p => .fixed p p.init
    rspDepth := depth
    cmdBuf   := []
    rspQueue := []
    host     := []
    received := [] }

/-- The machine right after reset: a PROGRAMMABLE instance with a response queue of depth 1 (log 1). Statements about
instances quantify over every state, hence over every `MODE` and `RSP_DEPTH`. -/
def State.reset : State := .powerOn .programmable 1

end Sys2Proof.Machine
end

