-- ==== Sys2Proof/Machine/Flags.lean ====
section
/-! DEFINITION. The one flag, `CFG_VALID` (10_state.md R22, R32), and the status codes of a response (60 R141). -/

namespace Sys2Proof.Machine

/-- The status of a response (R141). -/
inductive Status where
  | ok
  | parameterOutOfRange
  | bitCountOutOfRange
  | illegalCommand
  | notConfigured
  deriving DecidableEq, Repr

/-- The code in `RSP0[7:0]` (R141). -/
def statusCode (st : Status) : BitVec 8 :=
  match st with
  | .ok => 0x00#8
  | .parameterOutOfRange => 0x01#8
  | .bitCountOutOfRange => 0x02#8
  | .illegalCommand => 0x03#8
  | .notConfigured => 0x04#8

/-- The registers as a command reads them: `none` when `CFG_VALID = 0` (R38, R145). In a FIXED instance the parameter
registers are hardwired to `FIXED_PARAMS` (R22 to R31). -/
def State.engine? (s : State) : Option Engine :=
  match s.block with
  | .programmable e => e
  | .fixed p r => some ⟨p, r⟩

/-- `CFG_VALID` (R22, R39: every `Option` field of the record holds a value exactly when it is 1). -/
def State.cfgValid (s : State) : Bool := s.engine?.isSome

/-- `MODE` and `FIXED_PARAMS` (R10). -/
def State.mode (s : State) : Mode :=
  match s.block with
  | .programmable _ => .programmable
  | .fixed p _ => .fixed p

end Sys2Proof.Machine
end

