-- ==== Sys2Proof/Machine/Datapath.lean ====
section
/-! DEFINITION. The datapath functions of 40_datapath.md. Values are 64-bit words; `W` is `WIDTH` and `P` is `POLY`.
The rules define them for `W` in 1..64 and registers below `2^W`; no reachable state holds anything else (R27; log 13). -/

namespace Sys2Proof.Machine

/-- `mask(W) = 2^W - 1` (R90), computed as the source asks, from `~0`. -/
def mask (W : Nat) : Word := BitVec.allOnes 64 >>> (64 - W)

/-- The loop of R91 after `i` of its rounds: `r[n-1-j] <- v[j]` for `j < i`. -/
def reflectLoop (v : Word) (n : Nat) : Nat → Word
  | 0 => 0#64
  | i + 1 => reflectLoop v n i ||| (bitWord (v.getLsbD i) <<< (n - 1 - i))

/-- `reflect(v, n)`: reverses the low `n` bits of `v`; the bits at positions `n` and above are zero (R91). -/
def reflect (v : Word) (n : Nat) : Word := reflectLoop v n n

/-- The reflection shifter at width 8, on a message byte (R93). -/
def reflectByte (b : Byte) : Byte := (reflect (b.setWidth 64) 8).setWidth 8

/-- One step of polynomial division (R94): the message bit enters at the top, the top bit is tested after the XOR and
before the shift. -/
def bitstep (W : Nat) (P R : Word) (b : Bool) : Word :=
  let r1 := R ^^^ (bitWord b <<< (W - 1))
  let r2 := (r1 <<< 1) &&& mask W
  if r1.getLsbD (W - 1) then r2 ^^^ P else r2

/-- The low `n` bits of a byte in the order they enter (R43, R95): bit `n-1` first, or bit 0 first. -/
def messageBits (v : Byte) (n : Nat) (lsbFirst : Bool) : List Bool :=
  (List.range n).map fun k => v.getLsbD (if lsbFirst then k else n - 1 - k)

/-- Bit-steps over a list of message bits, first bit first. -/
def feedBits (W : Nat) (P R : Word) (bits : List Bool) : Word := bits.foldl (bitstep W P) R

/-- `feed(R, v, n, lsb_first)` (R95). -/
def feed (W : Nat) (P R : Word) (v : Byte) (n : Nat) (lsbFirst : Bool) : Word :=
  feedBits W P R (messageBits v n lsbFirst)

/-- `T[i]`, the contents of the lookup-table ROM (R97), as a function of `WIDTH` and `POLY` (R33; log 7). -/
def table (W : Nat) (P : Word) (i : Byte) : Word := feed W P 0#64 i 8 false

/-- The byte in the order the table index needs: reflected first when `REFIN = 1` (R100, option (a)). -/
def inputByte (refin : Bool) (byte : Byte) : Byte := if refin then reflectByte byte else byte

/-- The ROM index of a byte update (R100). -/
def romIndex (W : Nat) (R : Word) (c : Byte) : Byte :=
  if 8 ≤ W then ((R >>> (W - 8)) ^^^ c.setWidth 64).setWidth 8
  else (((R <<< (8 - W)) ^^^ c.setWidth 64) &&& 0xFF#64).setWidth 8

/-- `bytestep(R, byte)`, the table-driven update of PROCESS_BYTE (R100). -/
def bytestep (W : Nat) (P : Word) (refin : Bool) (R : Word) (byte : Byte) : Word :=
  let c := inputByte refin byte
  if 8 ≤ W then ((R <<< 8) &&& mask W) ^^^ table W P (romIndex W R c)
  else table W P (romIndex W R c)

/-- The published value of a remainder (R130): reflected over `W` bits iff `REFOUT`, XORed with `XOROUT`, masked. -/
def finalValue (W : Nat) (refout : Bool) (xorout R : Word) : Word :=
  ((if refout then reflect R W else R) ^^^ xorout) &&& mask W

end Sys2Proof.Machine
end

