-- ==== Sys2Proof/Machine/Operands.lean ====
section
/-! DEFINITION. The operand checks of the commands (41_configure.md R111; 42_update.md R121), and the check of an
instance's parameters at elaboration (00_scope.md R11, 70 R165). The operand fields themselves are taken from the
header in Decode.lean (30_encoding.md R67). -/

namespace Sys2Proof.Machine

/-- `valid(w, p, i, x)` (R111): the width first, then that each value fits in `w` bits. -/
def valid (w : BitVec 7) (p i x : Word) : Bool :=
  (1 ≤ w.toNat && w.toNat ≤ maxWidth) &&
    (decide (p ≤ mask w.toNat) && decide (i ≤ mask w.toNat) && decide (x ≤ mask w.toNat))

/-- The check of R111 on a whole parameter set. -/
def paramsValid (p : Params) : Bool := valid p.width p.poly p.init p.xorout

/-- The count check of PROCESS_BITS (R121, R143): `n <= MAX_BITS`. -/
def bitCountValid (n : BitVec 4) : Bool := n.toNat ≤ maxBits

/-- Does hardware with these instance parameters exist? `FIXED_PARAMS` must pass the check of R111 (R11), and
`RSP_DEPTH >= 1` (R165). -/
def elaborated (m : Mode) (depth : Nat) : Bool :=
  decide (1 ≤ depth) &&
    match m with
    | .programmable => true
    | .fixed p => paramsValid p

end Sys2Proof.Machine
end

