-- ==== Sys2Proof/Machine/Ops.lean ====
section
/-! DEFINITION. The shared operations of the commands: register writes, the response, the error response (the only
"exception" of this hardware, 60_exceptions.md R140, R149), the test of `CFG_VALID`, and the power-on reset. -/

namespace Sys2Proof.Machine

/-- `REM <- v` (R20). Without an engine there is no `REM` to write. -/
def State.setRem (v : Word) (s : State) : State :=
  { s with block :=
      match s.block with
      | .programmable none => .programmable none
      | .programmable (some e) => .programmable (some { e with rem := v })
      | .fixed p _ => .fixed p v }

/-- CONFIGURE's writes (R110): every parameter register, `REM <- i & mask(w)` and `CFG_VALID <- 1`; the `ROM` follows,
being a function of `WIDTH` and `POLY`. In a FIXED instance the parameter registers are hardwired. -/
def State.load (p : Params) (s : State) : State :=
  { s with block :=
      match s.block with
      | .programmable _ => .programmable (some ⟨p, p.init &&& mask p.width.toNat⟩)
      | .fixed q r => .fixed q r }

/-- `RSP0` (R75): `zext_64({h[3:0], status[7:0]})`. -/
def rsp0 (op : BitVec 4) (st : Status) : Word := (op ++ statusCode st).setWidth 64

/-- `respond(status, data)` (R14, R75): queue `RSP0`, then `RSP1 = data`. -/
def State.respond (op : BitVec 4) (st : Status) (data : Word) (s : State) : State :=
  { s with rspQueue := s.rspQueue ++ [rsp0 op st, data] }

/-- `raise Status(code)` (R14, R140): `respond(code, 0)` with no state written. -/
def State.raise (op : BitVec 4) (st : Status) (s : State) : State := s.respond op st 0#64

/-- The outcomes of a command. -/
abbrev Out := Host.Outcome State Fault Refusal

/-- Run `k` on the engine; NOT_CONFIGURED while `CFG_VALID = 0` (R145). -/
def withEngine (op : BitVec 4) (k : Engine → State) (s : State) : Out :=
  match s.engine? with
  | none => .next (s.raise op .notConfigured)
  | some e => .next (k e)

/-- A command that writes `REM` and returns no data: `REM <- f(registers); respond(OK, 0)`. -/
def updateRem (op : BitVec 4) (f : Engine → Word) (s : State) : Out :=
  withEngine op (fun e => (s.setRem (f e)).respond op .ok 0#64) s

/-- A command that only reads: `respond(OK, f(registers))` (43_readout.md). -/
def readOut (op : BitVec 4) (f : Engine → Word) (s : State) : Out :=
  withEngine op (fun e => s.respond op .ok (f e)) s

/-- Power-on reset (R160, R37): the registers of R37, both interface buffers empty; responses not taken are lost. What
the host has already taken, and what it will do next, are the host's own (log 9, log 14). -/
def State.powerOnReset (s : State) : State :=
  { s with
    block    := match s.block with
                | .programmable _ => .programmable none
                | .fixed p _ => .fixed p p.init
    cmdBuf   := []
    rspQueue := [] }

end Sys2Proof.Machine
end

