-- ==== Sys2Proof/Machine/Configure.lean ====
section
/-! DEFINITION. The configuration and reset commands (41_configure.md). -/

namespace Sys2Proof.Machine

/-- CONFIGURE (R110): illegal in a FIXED instance (R72), PARAMETER_OUT_OF_RANGE when `valid` fails (R111). -/
def execConfigure (w : BitVec 7) (ri ro : Bool) (p ini x : Word) (s : State) : Out :=
  match s.mode with
  | .fixed _ => .next (s.raise 0x1#4 .illegalCommand)
  | .programmable =>
    if valid w p ini x then
      .next ((s.load ⟨w, p, ini, x, ri, ro⟩).respond 0x1#4 .ok 0#64)
    else .next (s.raise 0x1#4 .parameterOutOfRange)

/-- RESET (R112): `REM <- INIT & mask(WIDTH)`. -/
def execReset (s : State) : Out :=
  updateRem 0x2#4 (fun e => e.params.init &&& mask e.params.width.toNat) s

/-- RESET_INIT (R113): `REM <- r & mask(WIDTH)`; `INIT` is not written. -/
def execResetInit (r : Word) (s : State) : Out :=
  updateRem 0x2#4 (fun e => r &&& mask e.params.width.toNat) s

end Sys2Proof.Machine
end

