-- ==== Sys2Proof/Machine/Readout.lean ====
section
/-! DEFINITION. The checksum and accessor commands (43_readout.md). -/

namespace Sys2Proof.Machine

/-- CHECKSUM (R130): the output reflection is governed by `REFOUT` alone (90_conflicts.md C1). -/
def execChecksum (s : State) : Out :=
  readOut 0x6#4
    (fun e => finalValue e.params.width.toNat e.params.refout e.params.xorout e.rem) s

/-- GET_TRUNCATED_POLYNOMIAL (R131). -/
def execGetTruncatedPolynomial (s : State) : Out := readOut 0x7#4 (fun e => e.params.poly) s

/-- GET_INITIAL_REMAINDER (R132). -/
def execGetInitialRemainder (s : State) : Out := readOut 0x8#4 (fun e => e.params.init) s

/-- GET_FINAL_XOR_VALUE (R133). -/
def execGetFinalXorValue (s : State) : Out := readOut 0x9#4 (fun e => e.params.xorout) s

/-- GET_REFLECT_INPUT (R134): `zext_64(REFIN)`. -/
def execGetReflectInput (s : State) : Out := readOut 0xA#4 (fun e => bitWord e.params.refin) s

/-- GET_REFLECT_REMAINDER (R135): the configured `REFOUT`, as given. -/
def execGetReflectRemainder (s : State) : Out := readOut 0xB#4 (fun e => bitWord e.params.refout) s

/-- GET_INTERIM_REMAINDER (R136): `REM`, in the unreflected domain. -/
def execGetInterimRemainder (s : State) : Out := readOut 0xC#4 (fun e => e.rem) s

/-- GET_BIT_COUNT (R137): `zext_64(WIDTH)`. -/
def execGetBitCount (s : State) : Out := readOut 0xD#4 (fun e => e.params.width.setWidth 64) s

end Sys2Proof.Machine
end

