-- ==== Sys2Proof/Machine/Update.lean ====
section
/-! DEFINITION. The remainder update commands (42_update.md). -/

namespace Sys2Proof.Machine

/-- PROCESS_BIT (R120): `REM <- bitstep(REM, b)`, whatever `REFIN` is. -/
def execProcessBit (b : Bool) (s : State) : Out :=
  updateRem 0x3#4 (fun e => bitstep e.params.width.toNat e.params.poly e.rem b) s

/-- PROCESS_BITS (R121): BIT_COUNT_OUT_OF_RANGE when `n > MAX_BITS`, else `REM <- feed(REM, v, n, REFIN)`. The test of
`CFG_VALID` comes first (R147). -/
def execProcessBits (v : Byte) (n : BitVec 4) (s : State) : Out :=
  withEngine 0x4#4 (fun e =>
    if bitCountValid n then
      (s.setRem (feed e.params.width.toNat e.params.poly e.rem v n.toNat e.params.refin)).respond
        0x4#4 .ok 0#64
    else s.raise 0x4#4 .bitCountOutOfRange) s

/-- PROCESS_BYTE (R122): `REM <- bytestep(REM, byte)`. -/
def execProcessByte (byte : Byte) (s : State) : Out :=
  updateRem 0x5#4
    (fun e => bytestep e.params.width.toNat e.params.poly e.params.refin e.rem byte) s

end Sys2Proof.Machine
end

