-- ==== Sys2Proof/Machine/Dispatch.lean ====
section
/-! DEFINITION. The dispatch of a command to its meaning, one arm per constructor. -/

namespace Sys2Proof.Machine

def exec (i : Instr) (s : State) : Host.Outcome State Fault Refusal :=
  match i with
  | .configure w ri ro p ini x => Sys2Proof.Machine.execConfigure w ri ro p ini x s
  | .reset => Sys2Proof.Machine.execReset s
  | .resetInit r => Sys2Proof.Machine.execResetInit r s
  | .processBit b => Sys2Proof.Machine.execProcessBit b s
  | .processBits v n => Sys2Proof.Machine.execProcessBits v n s
  | .processByte byte => Sys2Proof.Machine.execProcessByte byte s
  | .checksum => Sys2Proof.Machine.execChecksum s
  | .getTruncatedPolynomial => Sys2Proof.Machine.execGetTruncatedPolynomial s
  | .getInitialRemainder => Sys2Proof.Machine.execGetInitialRemainder s
  | .getFinalXorValue => Sys2Proof.Machine.execGetFinalXorValue s
  | .getReflectInput => Sys2Proof.Machine.execGetReflectInput s
  | .getReflectRemainder => Sys2Proof.Machine.execGetReflectRemainder s
  | .getInterimRemainder => Sys2Proof.Machine.execGetInterimRemainder s
  | .getBitCount => Sys2Proof.Machine.execGetBitCount s

end Sys2Proof.Machine
end

