-- ==== Sys2Proof/Machine/Channel.lean ====
section
/-! DEFINITION. The command and response channels (30_encoding.md R63, 70 R160, R162, R165, R168, R169): what one move
of the host does to the block. A command executes, atomically, when its last word is accepted (R163; log 4). -/

namespace Sys2Proof.Machine

/-- Execute the words of a complete command (R69): the meaning of the command they decode to, or the response
ILLEGAL_COMMAND with the header's `OP` echoed and nothing written (R70, R71, R75). -/
def runCommand (ws : List Word) (s : State) : Out :=
  match decode ws with
  | .ok i => exec i s
  | .error _ => .next (s.raise (fieldOp (ws.headD 0#64)) .illegalCommand)

/-- Has the response queue room for one more response? A response of which one word is left still occupies its place
(R165; log 6). -/
def State.room (s : State) : Bool := (s.rspQueue.length + 1) / 2 < s.rspDepth

/-- The block accepts one command word (R63, R165): it joins the command buffer; if that completes a command, the
command leaves the buffer and executes. -/
def acceptWord (w : Word) (s : State) : Out :=
  let ws := s.cmdBuf ++ [w]
  if isComplete ws then runCommand ws { s with cmdBuf := [] } else .next { s with cmdBuf := ws }

/-- The host takes the oldest response word, if one is offered (R168, R169). -/
def State.takeWord (s : State) : State :=
  { s with rspQueue := s.rspQueue.drop 1, received := s.received ++ s.rspQueue.take 1 }

/-- One move of the host, carried out. -/
def hostMove (m : HostMove) (s : State) : Out :=
  match m with
  | .send w => acceptWord w s
  | .take => .next s.takeWord
  | .rst => .next s.powerOnReset

/-- Can the transfer happen now? A word is accepted unless it would complete a command while the response queue is full
(`cmd_ready` low, R165, which leaves open which words wait: log 6); a response word transfers when one is offered (`rsp_valid`, R169); `rst` always takes effect. -/
def enabled (m : HostMove) (s : State) : Bool :=
  match m with
  | .send w => !isComplete (s.cmdBuf ++ [w]) || s.room
  | .take => !s.rspQueue.isEmpty
  | .rst => true

/-- Do two moves use the same channel, so that the second waits for the first? -/
def sameChannel (m m' : HostMove) : Bool :=
  match m, m' with
  | .send _, .send _ => true
  | .take, .take => true
  | _, _ => false

/-- The first move of a list that does not wait behind `m`, with the other moves left in order (log 3). -/
def nextOther (m : HostMove) : List HostMove → Option (HostMove × List HostMove)
  | [] => none
  | x :: xs =>
    if sameChannel m x then
      match nextOther m xs with
      | some (y, ys) => some (y, x :: ys)
      | none => none
    else some (x, xs)

/-- Why the block waits when the host has no move left (R165, R170). The names, and that a pending command is reported
before an untaken response, are the model's (log 5). -/
def waiting (s : State) : Fault :=
  if !s.cmdBuf.isEmpty then .pendingOperands
  else if !s.rspQueue.isEmpty then .untakenResponse
  else .quiescent

/-- Why the block waits when the host's next move cannot happen and none on the other channel will (R165, I18; the names
are the model's, log 5). -/
def blockedBy (m : HostMove) : Fault :=
  match m with
  | .send _ => .responseQueueFull
  | .take => .noResponseOffered
  | .rst => .quiescent

/-- One step of an instance that exists: the host's next move; while that one waits, the first move that does not wait
behind it, for the two channels are independent (R168, R169; log 3). -/
def stepHost (s : State) : Out :=
  match s.host with
  | [] => .fault (waiting s)
  | m :: rest =>
    if enabled m s then hostMove m { s with host := rest }
    else
      match nextOther m rest with
      | some (m', rest') => hostMove m' { s with host := m :: rest' }
      | none => .fault (blockedBy m)

/-- The moves that send the last word of a command whose other words stand in the command buffer. -/
def placeCommand (ws : List Word) (s : State) : State :=
  { s with
    cmdBuf   := ws.dropLast
    rspQueue := if s.room then s.rspQueue else []
    host     := .send (ws.getLastD 0#64) :: s.host }

end Sys2Proof.Machine
end

