-- ==== Sys2Proof/Machine/Step.lean ====
section
/-! DEFINITION. One step: the host's next move (Channel.lean), in an instance that exists (00_scope.md R11). -/

namespace Sys2Proof.Machine

/-- One step of the block with its host. -/
def step (s : State) : Host.Outcome State Fault Refusal :=
  if elaborated s.mode s.rspDepth then stepHost s else .refused .notElaborated

/-- `s` with the instruction of `tableWords nbits w` about to complete: all its words but the last stand in the command
buffer, and the host's next move sends the last one, so the next step runs it (log 10). -/
def State.withFetchWord (s : State) (nbits w : Nat) : State := placeCommand (tableWords nbits w) s

end Sys2Proof.Machine
end

