-- ==== Sys2Proof/Machine/HostProgram.lean ====
section
/-! DEFINITION. Sequences of commands and the host's side of them (42_update.md R124; 70 R168, R170). -/

namespace Sys2Proof.Machine

/-- Execute complete commands one after another, each given by its words, illegal ones included (R51, R162). -/
def runCommands : List (List Word) → State → Out
  | [], s => .next s
  | ws :: rest, s =>
    match runCommand ws s with
    | .next t => runCommands rest t
    | .fault r => .fault r
    | .refused r => .refused r

/-- The commands of a program, as words. -/
def programWords (is : List Instr) : List (List Word) := is.map encode

/-- The host issues one command and takes its response: its words, then the two words of the response (R168). -/
def issue (ws : List Word) : List HostMove := ws.map HostMove.send ++ [.take, .take]

/-- The host-side expansion of `process_bytes PTR, LEN` (R124): one PROCESS_BYTE for each byte, in ascending addresses.
`memRead` is the host's memory, of which the spec says nothing (R42, D22; log 16). -/
def processBytes (memRead : Nat → Byte) (ptr len : Nat) : List Instr :=
  (List.range len).map fun k => .processByte (memRead (ptr + k))

end Sys2Proof.Machine
end

