-- ==== Sys2Proof/Machine/Assembler.lean ====
section
/-! DEFINITION. The assembler of 30_encoding.md R78 to R80: one line of text, to the commands it stands for. -/

namespace Sys2Proof.Machine

/-! ### From a line's operands to commands (R79) -/

/-- The commands a line stands for; `none` where the assembler refuses an operand that does not fit its field (R78).
Values that the command refuses at run time are assembled (R74, R78). -/
def assemble (memRead : Nat → Byte) (l : AsmLine) : Option (List Instr) :=
  if l.wellFormed then
    some <|
      match l with
      | .configure w p i x ri ro =>
        [.configure (BitVec.ofNat 7 w) (ri == 1) (ro == 1) (BitVec.ofNat 64 p) (BitVec.ofNat 64 i)
          (BitVec.ofNat 64 x)]
      | .reset => [.reset]
      | .resetInit r => [.resetInit (BitVec.ofNat 64 r)]
      | .processBit b => [.processBit (b == 1)]
      | .processBits v n => [.processBits (BitVec.ofNat 8 v) (BitVec.ofNat 4 n)]
      | .processByte b => [.processByte (BitVec.ofNat 8 b)]
      | .processBytes ptr len => processBytes memRead ptr len
      | .checksum => [.checksum]
      | .getTruncatedPolynomial => [.getTruncatedPolynomial]
      | .getInitialRemainder => [.getInitialRemainder]
      | .getFinalXorValue => [.getFinalXorValue]
      | .getReflectInput => [.getReflectInput]
      | .getReflectRemainder => [.getReflectRemainder]
      | .getInterimRemainder => [.getInterimRemainder]
      | .getBitCount => [.getBitCount]
  else none

/-! ### From text to a line (R78); log 15 names what R78 leaves open -/

/-- A space or a tab. -/
def isBlank (c : Char) : Bool := c == ' ' || c == '\t'

/-- A line without its comment, which `;` begins. -/
def stripComment (cs : List Char) : List Char := cs.takeWhile (· != ';')

/-- A piece of text without the blanks around it. -/
def trimBlanks (cs : List Char) : List Char :=
  ((cs.dropWhile isBlank).reverse.dropWhile isBlank).reverse

/-- The pieces between the commas of a text. -/
def splitCommas : List Char → List (List Char)
  | [] => [[]]
  | c :: cs =>
    if c == ',' then [] :: splitCommas cs
    else
      match splitCommas cs with
      | [] => [[c]]
      | p :: ps => (c :: p) :: ps

/-- The value of a digit in a base up to 16. -/
def digitValue (base : Nat) (c : Char) : Option Nat :=
  let n := c.toNat
  let v :=
    if 48 ≤ n && n ≤ 57 then some (n - 48)
    else if 97 ≤ n && n ≤ 102 then some (n - 87)
    else if 65 ≤ n && n ≤ 70 then some (n - 55)
    else none
  match v with
  | some d => if d < base then some d else none
  | none => none

/-- The value of a list of digits, continuing from `acc`. -/
def digitsValue (base acc : Nat) : List Char → Option Nat
  | [] => some acc
  | c :: cs =>
    match digitValue base c with
    | some d => digitsValue base (base * acc + d) cs
    | none => none

/-- A number: decimal, or hexadecimal after `0x` (R78). DESIGN CHOICE (log 15): leading zeros are read in either base. -/
def parseNumber (cs : List Char) : Option Nat :=
  match cs with
  | [] => none
  | ['0', 'x'] => none
  | '0' :: 'x' :: ds => digitsValue 16 0 ds
  | ds => digitsValue 10 0 ds

/-- A boolean operand: `0`, `1`, `false` or `true` (R78). DESIGN CHOICE (log 15): R78 lists these four spellings only, and
the model reads every other spelling of a number equal to 0 or 1 as well (`0x1`, `01`); a number above 1 is left for
`AsmLine.wellFormed` to refuse. -/
def parseBoolean (cs : List Char) : Option Nat :=
  if cs == ['f', 'a', 'l', 's', 'e'] then some 0
  else if cs == ['t', 'r', 'u', 'e'] then some 1
  else parseNumber cs

/-- `configure`'s operands, in the order of R79. -/
def parseConfigure (ops : List (List Char)) : Option AsmLine :=
  match ops with
  | [w, p, i, x, ri, ro] => do
    pure (.configure (← parseNumber w) (← parseNumber p) (← parseNumber i) (← parseNumber x)
      (← parseBoolean ri) (← parseBoolean ro))
  | _ => none

/-- A mnemonic that takes no operand. -/
def noOperands (l : AsmLine) (ops : List (List Char)) : Option AsmLine :=
  if ops.isEmpty then some l else none

/-- A mnemonic with one operand. -/
def oneOperand (f : Nat → AsmLine) (parse : List Char → Option Nat) (ops : List (List Char)) :
    Option AsmLine :=
  match ops with
  | [a] => (parse a).map f
  | _ => none

/-- A mnemonic with two numbers. -/
def twoNumbers (f : Nat → Nat → AsmLine) (ops : List (List Char)) : Option AsmLine :=
  match ops with
  | [a, b] => do pure (f (← parseNumber a) (← parseNumber b))
  | _ => none

/-- `reset`, or `reset INIT` (R79). -/
def parseReset (ops : List (List Char)) : Option AsmLine :=
  if ops.isEmpty then some .reset else oneOperand .resetInit parseNumber ops

/-- The mnemonics of R79 and R80, each with the reading of its operands. -/
def mnemonicTable : List (List Char × (List (List Char) → Option AsmLine)) :=
  [ (['c','o','n','f','i','g','u','r','e'], parseConfigure),
    (['r','e','s','e','t'], parseReset),
    (['p','r','o','c','e','s','s','_','b','i','t'], oneOperand .processBit parseBoolean),
    (['p','r','o','c','e','s','s','_','b','i','t','s'], twoNumbers .processBits),
    (['p','r','o','c','e','s','s','_','b','y','t','e'], oneOperand .processByte parseNumber),
    (['p','r','o','c','e','s','s','_','b','y','t','e','s'], twoNumbers .processBytes),
    (['c','h','e','c','k','s','u','m'], noOperands .checksum),
    (['g','e','t','_','t','r','u','n','c','a','t','e','d','_','p','o','l','y','n','o','m','i','a','l'],
      noOperands .getTruncatedPolynomial) ] ++
  [ (['g','e','t','_','i','n','i','t','i','a','l','_','r','e','m','a','i','n','d','e','r'],
      noOperands .getInitialRemainder),
    (['g','e','t','_','f','i','n','a','l','_','x','o','r','_','v','a','l','u','e'],
      noOperands .getFinalXorValue),
    (['g','e','t','_','r','e','f','l','e','c','t','_','i','n','p','u','t'], noOperands .getReflectInput),
    (['g','e','t','_','r','e','f','l','e','c','t','_','r','e','m','a','i','n','d','e','r'],
      noOperands .getReflectRemainder),
    (['g','e','t','_','i','n','t','e','r','i','m','_','r','e','m','a','i','n','d','e','r'],
      noOperands .getInterimRemainder),
    (['g','e','t','_','b','i','t','_','c','o','u','n','t'], noOperands .getBitCount) ]

/-- The operands of a line: none when nothing but blanks follows the mnemonic. -/
def splitOperands (cs : List Char) : List (List Char) :=
  if (trimBlanks cs).isEmpty then [] else (splitCommas cs).map trimBlanks

/-- One line of source. `none`: the line is refused. `some none`: a line with no command on it. -/
def parseLine (cs : List Char) : Option (Option AsmLine) :=
  let body := trimBlanks (stripComment cs)
  if body.isEmpty then some none
  else
    let name := body.takeWhile fun c => !isBlank c
    let ops := splitOperands (body.drop name.length)
    match mnemonicTable.find? fun r => r.1 == name with
    | some r => (r.2 ops).map some
    | none => none

/-- Assemble one line of source to the words of its commands (R78, R79). -/
def assembleLine (memRead : Nat → Byte) (cs : List Char) : Option (List (List Word)) :=
  match parseLine cs with
  | none => none
  | some none => some []
  | some (some l) => (assemble memRead l).map programWords

end Sys2Proof.Machine
end

