-- ==== Sys2Proof/Machine/ReflectedForm.lean ====
section
/-! DEFINITION. The alternative readings of 40_datapath.md that no command can tell from the model's datapath: the
source's two table formulations (R98), and the reflected table and register of option (b) (R102 to R105; log 8). No
command of the model uses them; the equivalences are statements. -/

namespace Sys2Proof.Machine

/-- One plain division step, without a message bit (the loop body of R98). -/
def plainStep (W : Nat) (P R : Word) : Word :=
  if R.getLsbD (W - 1) then ((R <<< 1) &&& mask W) ^^^ P else (R <<< 1) &&& mask W

/-- `n` plain division steps. -/
def plainSteps (W : Nat) (P : Word) : Nat → Word → Word
  | 0, R => R
  | n + 1, R => plainSteps W P n (plainStep W P R)

/-- `Tr[i] = reflect(T[reflect(i, 8)], W)` (R103). -/
def tableReflected (W : Nat) (P : Word) (i : Byte) : Word := reflect (table W P (reflectByte i)) W

/-- The byte update on the reflected register `E` (R104):
`E' = ((E >> 8) ^ Tr[(E ^ byte) & 0xFF]) & mask(W)`. -/
def bytestepReflected (W : Nat) (P E : Word) (byte : Byte) : Word :=
  ((E >>> 8) ^^^ tableReflected W P (((E ^^^ byte.setWidth 64) &&& 0xFF#64).setWidth 8)) &&& mask W

/-- The register an implementation of option (b) may hold: `E = REFIN ? reflect(REM, W) : REM` (R105). -/
def reflectedRegister (W : Nat) (refin : Bool) (R : Word) : Word := if refin then reflect R W else R

/-- The checksum on the register of R105, where the source's rule `REFIN ^ REFOUT` is exact (90_conflicts.md C1). -/
def finalValueReflected (W : Nat) (refin refout : Bool) (xorout E : Word) : Word :=
  (if refin ^^ refout then reflect E W else E) ^^^ xorout

end Sys2Proof.Machine
end

