-- ==== Sys2Proof/Safety.lean ====
section
/-! DEFINITION. The terms the statements use: the invariant of R27 and R39, a finished run (R170), what one command may
change (R47, R75), and the relation between a FIXED instance and its PROGRAMMABLE twin (R152). -/

namespace Sys2Proof.Machine

/-- A parameter set that passes the check of R111, with a remainder below `2^WIDTH` (R27). -/
def engineFits (e : Engine) : Bool :=
  paramsValid e.params && decide (e.rem ≤ mask e.params.width.toNat)

/-- The registers fit: there are none, or their values do (R27, R39). -/
def registersFit (s : State) : Bool :=
  match s.engine? with
  | none => true
  | some e => engineFits e

/-- The command buffer holds no complete command (R34). -/
def bufferPending (ws : List Word) : Bool := !isComplete ws

/-- The response queue holds at most `RSP_DEPTH` responses of two words (R165). -/
def queueFits (s : State) : Bool := s.rspQueue.length ≤ 2 * s.rspDepth

/-- The invariant of the machine: the instance exists (R11), the registers fit (R27), the command buffer is pending
(R34), the response queue fits (R165). -/
abbrev State.Inv (s : State) : Prop :=
  elaborated s.mode s.rspDepth = true ∧ registersFit s = true ∧
    bufferPending s.cmdBuf = true ∧ queueFits s = true

/-- The end of a run (R170): the host has no move left, the command buffer and the response queue are empty. -/
abbrev State.finished (s : State) : Prop := s.host = [] ∧ s.cmdBuf = [] ∧ s.rspQueue = []

/-- The instance parameters are those of `s` (R36). -/
abbrev SameInstance (s t : State) : Prop := t.mode = s.mode ∧ t.rspDepth = s.rspDepth

/-- What a command does at the interface, whatever it does to the registers: it queues the one response `r0`, `r1` behind
those waiting, and changes nothing else outside the registers (R47, R75). -/
abbrev Answered (s t : State) (r0 r1 : Word) : Prop :=
  t.rspQueue = s.rspQueue ++ [r0, r1] ∧ t.cmdBuf = s.cmdBuf ∧ t.host = s.host ∧
    t.received = s.received ∧ SameInstance s t

/-- Under `CFG_VALID = 0` the command writes no state and is answered with the response `nc`, 0 (R145). -/
abbrev RefusedUnconfigured (i : Instr) (nc : Word) : Prop :=
  ∀ s : State, s.engine? = none →
    ∃ t, exec i s = .next t ∧ t.block = s.block ∧ Answered s t nc 0#64

/-- A configured engine `e` runs the command: `REM` becomes `f e`, no other register changes, and the response is
`ok`, 0. -/
abbrev WritesRem (i : Instr) (ok : Word) (f : Engine → Word) : Prop :=
  ∀ (s : State) (e : Engine), s.engine? = some e →
    ∃ t, exec i s = .next t ∧ t.engine? = some { e with rem := f e } ∧ Answered s t ok 0#64

/-- A configured engine `e` runs the command: no register changes, and the response is `ok`, `f e`. -/
abbrev ReadsOut (i : Instr) (ok : Word) (f : Engine → Word) : Prop :=
  ∀ (s : State) (e : Engine), s.engine? = some e →
    ∃ t, exec i s = .next t ∧ t.block = s.block ∧ Answered s t ok (f e)

/-- A complete command with opcode `op` whose header matches none of the rows `(match, mask)` of that opcode writes no
state and is answered with ILLEGAL_COMMAND (R71). -/
abbrev ReservedBitsIllegal (op : BitVec 4) (rows : List (Word × Word)) (r0 : Word) : Prop :=
  ∀ (h : Word) (ops : List Word) (s : State),
    h.extractLsb' 0 4 = op → ops.length = operandCount h →
    (∀ r ∈ rows, h &&& r.2 ≠ r.1) →
    ∃ t, runCommand (h :: ops) s = .next t ∧ t.block = s.block ∧ Answered s t r0 0#64

/-- From `s`, two programs have the same effect: the same registers at the end, and every command of each answers OK
with no data (R123). -/
abbrev SameEffectAt (s : State) (is js : List Instr) : Prop :=
  ∃ t u, runCommands (programWords is) s = .next t ∧ runCommands (programWords js) s = .next u ∧
    t.block = u.block ∧
    t.rspQueue = s.rspQueue ++ is.flatMap (fun i => [(i.op ++ 0x00#8).setWidth 64, 0#64]) ∧
    u.rspQueue = s.rspQueue ++ js.flatMap (fun j => [(j.op ++ 0x00#8).setWidth 64, 0#64])

/-- The registers after PROCESS_BYTE over the bytes, one after another: `REM` advances by one byte update each, and an
unconfigured block stays so (R122, R145). -/
def registersAfter (o : Option Engine) (bytes : List Byte) : Option Engine :=
  o.map fun e =>
    { e with rem := bytes.foldl (bytestep e.params.width.toNat e.params.poly e.params.refin) e.rem }

/-- The responses of `n` PROCESS_BYTE commands (R75, R122, R145). -/
def byteResponses (o : Option Engine) (n : Nat) : List Word :=
  (List.replicate n [if o.isSome then 0x500#64 else 0x504#64, 0#64]).flatten

/-- The response of CHECKSUM (R75, R130, R145). -/
def checksumResponse (o : Option Engine) : List Word :=
  match o with
  | none => [0x604#64, 0#64]
  | some e =>
    [0x600#64, ((if e.params.refout then reflect e.rem e.params.width.toNat else e.rem) ^^^ e.params.xorout) &&&
      mask e.params.width.toNat]

/-- The words a script sends, in order. -/
def sentWords : List HostMove → List Word
  | [] => []
  | .send w :: ms => w :: sentWords ms
  | .take :: ms => sentWords ms
  | .rst :: ms => sentWords ms

/-- A FIXED instance and the PROGRAMMABLE instance configured with the same parameters, alike in all else (R152). -/
abbrev TwinOf (f g : State) : Prop :=
  ∃ e : Engine, f.block = .fixed e.params e.rem ∧ g.block = .programmable (some e) ∧
    paramsValid e.params = true ∧ g.rspDepth = f.rspDepth ∧ g.cmdBuf = f.cmdBuf ∧
    g.rspQueue = f.rspQueue ∧ g.host = f.host ∧ g.received = f.received

/-- Is a list of words a legal CONFIGURE command (R110)? -/
def isConfigure (ws : List Word) : Bool :=
  match decode ws with
  | .ok (.configure _ _ _ _ _ _) => true
  | _ => false

/-- A command that only reads (R48): CHECKSUM and the seven GET commands. -/
def isRead (i : Instr) : Bool :=
  match i with
  | .checksum | .getTruncatedPolynomial | .getInitialRemainder | .getFinalXorValue
  | .getReflectInput | .getReflectRemainder | .getInterimRemainder | .getBitCount => true
  | .configure .. | .reset | .resetInit _ | .processBit _ | .processBits .. | .processByte _ => false

/-- A command that feeds message bits (R47): the three PROCESS commands. -/
def isProcess (i : Instr) : Bool :=
  match i with
  | .processBit _ | .processBits .. | .processByte _ => true
  | .configure .. | .reset | .resetInit _ | .checksum | .getTruncatedPolynomial
  | .getInitialRemainder | .getFinalXorValue | .getReflectInput | .getReflectRemainder
  | .getInterimRemainder | .getBitCount => false

end Sys2Proof.Machine
end

