-- ==== Sys2Proof/Certificates/Slice0/Obligations.lean ====
section
/-! DEFINITION. The statements about the model, for the provers. `R<n>` is a numbered rule of spec/. A response is written
as its two words; `RSP0 = OP << 8 | STATUS` (R75), so 0x304 is PROCESS_BIT answered with NOT_CONFIGURED. -/

open Sys2Proof Sys2Proof.Machine

/-! ### Encoding (30_encoding.md) -/

/-- R68, R69, R79: decoding the words of any command gives it back, with every operand at every value of its field. -/
def Obligations.DecodeOfEncode : Prop :=
  ∀ i : Instr, decode (encode i) = .ok i

/-- R68, R69, R71: a list of words that decodes is exactly the encoding of what it decodes to: no nonzero reserved bit is
overlooked and no word is ignored. -/
def Obligations.EncodeOfDecode : Prop :=
  ∀ (ws : List Word) (i : Instr), decode ws = .ok i → encode i = ws

/-- R68: the rows are disjoint, so a header selects at most one row, and the decoder finds it. -/
def Obligations.HeaderSelectsAtMostOneRow : Prop :=
  (∀ (h : Word) (r r' : OpcodeRow), r ∈ opcodeMap → r' ∈ opcodeMap →
    h &&& r.mask = r.pattern → h &&& r'.mask = r'.pattern → r = r') ∧
  (∀ (h : Word) (r : OpcodeRow), selectRow h = some r ↔ r ∈ opcodeMap ∧ h &&& r.mask = r.pattern)

/-- R79, and the encoding examples of 95_test_vectors.md 2.5: words written out from the spec decode to their commands. -/
def Obligations.SpecExampleWordsDecode : Prop :=
  decode [0x1A000001#64, 0x04C11DB7#64, 0xFFFFFFFF#64, 0xFFFFFFFF#64]
    = .ok (.configure 32#7 true true 0x04C11DB7#64 0xFFFFFFFF#64 0xFFFFFFFF#64) ∧
  decode [0x20000002#64, 0x1FFFF#64] = .ok (.resetInit 0x1FFFF#64) ∧
  decode [0x103#64] = .ok (.processBit true) ∧
  decode [0x30504#64] = .ok (.processBits 0x05#8 3#4) ∧
  decode [0x3105#64] = .ok (.processByte 0x31#8) ∧
  decode [0xD#64] = .ok .getBitCount

/-- R63: the number of operand words comes from the header alone; while the response queue has room, a command waits in
the command buffer until they have all arrived, and then, legal or not, leaves it empty, having consumed exactly its words.
(What happens to a word while the queue is full is log 6's choice: `FullQueueHoldsTheWord`.) -/
def Obligations.LengthFromHeaderAlone : Prop :=
  (∀ h : Word, operandCount h =
    if h.extractLsb' 0 4 = 1#4 then 3
    else if h.extractLsb' 0 4 = 2#4 then (if h.getLsbD 29 then 1 else 0) else 0) ∧
  (∀ (s : State) (h w : Word) (ops : List Word) (rest : List HostMove),
    elaborated s.mode s.rspDepth = true → s.room = true →
    s.cmdBuf ++ [w] = h :: ops → s.host = .send w :: rest →
    (ops.length < operandCount h → step s = .next { s with cmdBuf := h :: ops, host := rest }) ∧
    (ops.length = operandCount h →
      ∃ t, step s = .next t ∧ t.cmdBuf = [] ∧ t.host = rest))

/-- R70: a header with a reserved opcode consumes no operand word, writes no state and is answered with
ILLEGAL_COMMAND. -/
def Obligations.ReservedOpcodesIllegal : Prop :=
  ∀ (s : State) (h : Word) (rest : List HostMove),
    elaborated s.mode s.rspDepth = true → s.room = true → s.cmdBuf = [] → s.host = .send h :: rest →
    h.extractLsb' 0 4 = 0x0#4 ∨ h.extractLsb' 0 4 = 0xE#4 ∨ h.extractLsb' 0 4 = 0xF#4 →
    ∃ t, step s = .next t ∧ t.block = s.block ∧
      Answered { s with host := rest } t (0x3#64 ||| ((h &&& 0xF#64) <<< 8)) 0#64

/-- R71: a complete command whose header has a defined opcode and selects no row consumes its words, writes no state and
is answered with ILLEGAL_COMMAND; the three cases the rule names select no row. -/
def Obligations.ReservedBitsAreIllegal : Prop :=
  (∀ (s : State) (h w : Word) (ops : List Word) (rest : List HostMove),
    elaborated s.mode s.rspDepth = true → s.room = true →
    s.cmdBuf ++ [w] = h :: ops → ops.length = operandCount h → s.host = .send w :: rest →
    (∀ r ∈ opcodeMap, h &&& r.mask ≠ r.pattern) →
    ∃ t, step s = .next t ∧ t.block = s.block ∧
      Answered { s with host := rest, cmdBuf := [] } t (0x3#64 ||| ((h &&& 0xF#64) <<< 8)) 0#64) ∧
  (∀ h : Word,
    (h.getLsbD 29 = true ∧ h.extractLsb' 0 4 ≠ 2#4) ∨
    (h.extractLsb' 0 4 = 3#4 ∧ h.extractLsb' 9 7 ≠ 0#7) ∨
    h.extractLsb' 4 4 ≠ 0#4 ∨ h.extractLsb' 30 34 ≠ 0#34 →
    ∀ r ∈ opcodeMap, h &&& r.mask ≠ r.pattern)

/-- R72: in a FIXED instance a well-formed CONFIGURE consumes its three operand words, writes no state and is answered with
ILLEGAL_COMMAND. -/
def Obligations.ConfigureIllegalInFixed : Prop :=
  ∀ (s : State) (q : Params) (rem h p i x : Word) (rest : List HostMove),
    s.block = .fixed q rem → elaborated s.mode s.rspDepth = true → s.room = true →
    h &&& 0xFFFFFFFFE00FFFFF#64 = 0x1#64 → s.cmdBuf = [h, p, i] → s.host = .send x :: rest →
    ∃ t, step s = .next t ∧ t.block = s.block ∧
      Answered { s with host := rest, cmdBuf := [] } t 0x103#64 0#64

/-- R75, R76, R140, R141: every list of words of one command, legal or not, gives one response of two words: the status in
bits 7:0 (one of the five codes), the header's `OP` in bits 11:8, zeros above; the data word is 0 unless the status is OK
and the command reads; a status other than OK writes no state. -/
def Obligations.EveryCommandAnswersOnce : Prop :=
  ∀ (h : Word) (ops : List Word) (s : State), ops.length = operandCount h →
    ∃ t r0 r1, runCommand (h :: ops) s = .next t ∧ Answered s t r0 r1 ∧
      r0.extractLsb' 0 8 ∈ [0x00#8, 0x01#8, 0x02#8, 0x03#8, 0x04#8] ∧
      r0.extractLsb' 8 4 = h.extractLsb' 0 4 ∧ r0.extractLsb' 12 52 = 0#52 ∧
      (r0.extractLsb' 0 8 ≠ 0x00#8 → r1 = 0#64 ∧ t.block = s.block) ∧
      (∀ i, decode (h :: ops) = .ok i → isRead i = false → r1 = 0#64)

/-- A step runs the decoded command: when the host's next word completes a command that decodes to `i` and the response
queue has room, the step is `exec i` on the state with that move consumed and the command buffer emptied. -/
def Obligations.StepRunsDecodedCommand : Prop :=
  ∀ (s : State) (w : Word) (rest : List HostMove) (i : Instr),
    elaborated s.mode s.rspDepth = true → s.room = true → s.host = .send w :: rest →
    decode (s.cmdBuf ++ [w]) = .ok i →
    step s = exec i { s with cmdBuf := [], host := rest }

/-! ### Datapath (40_datapath.md) -/

/-- R90: `mask(W) = 2^W - 1` for `W` in 1..64, whose bits 0..W-1 are one and whose others are zero. -/
def Obligations.MaskIsTwoPowMinusOne : Prop :=
  (∀ W : Nat, 1 ≤ W → W ≤ 64 →
    (mask W).toNat = 2 ^ W - 1 ∧ ∀ k, (mask W).getLsbD k = decide (k < W)) ∧
  mask 64 = 0xFFFFFFFFFFFFFFFF#64

/-- R91: `reflect(v, n)` reverses the low `n` bits; higher bits of `v` are ignored and those of the result are zero. -/
def Obligations.ReflectReversesLowBits : Prop :=
  (∀ (v : Word) (n j : Nat), n ≤ 64 →
    (reflect v n).getLsbD j = (decide (j < n) && v.getLsbD (n - 1 - j))) ∧
  (∀ (v : Word) (n : Nat), n ≤ 64 → (reflect v n).toNat < 2 ^ n) ∧
  (∀ v : Word, reflect v 0 = 0#64)

/-- R92: reflecting twice masks. -/
def Obligations.ReflectTwiceMasks : Prop :=
  (∀ (v : Word) (n : Nat), 1 ≤ n → n ≤ 64 → reflect (reflect v n) n = v &&& mask n) ∧
  (∀ v : Word, reflect (reflect v 0) 0 = 0#64)

/-- R94: the bit-step, over the rule's unbounded naturals, with its corner cases. -/
def Obligations.BitstepOverNaturals : Prop :=
  ∀ (W : Nat) (P R : Word) (b : Bool), 1 ≤ W → W ≤ 64 → P.toNat < 2 ^ W → R.toNat < 2 ^ W →
    (bitstep W P R b).toNat =
      (let r1 := R.toNat ^^^ (b.toNat <<< (W - 1))
       let r2 := (r1 <<< 1) &&& (2 ^ W - 1)
       if r1.testBit (W - 1) then r2 ^^^ P.toNat else r2) ∧
    (bitstep W P R b).toNat < 2 ^ W ∧
    (W = 1 → bitstep W P R b = if R ^^^ bitWord b = 0#64 then 0#64 else P) ∧
    (P = 0#64 → (bitstep W P R b).toNat =
      ((R.toNat ^^^ (b.toNat <<< (W - 1))) * 2) % 2 ^ W)

/-- R95: `feed` steps over the low `n` bits, bit `n-1` first or bit 0 first; none for `n = 0`; higher bits are never
read. -/
def Obligations.FeedOrder : Prop :=
  ∀ (W : Nat) (P R : Word) (v : Byte),
    (∀ l, feed W P R v 0 l = R) ∧
    (∀ n, feed W P R v (n + 1) false = feed W P (bitstep W P R (v.getLsbD n)) v n false) ∧
    (∀ n, feed W P R v (n + 1) true = bitstep W P (feed W P R v n true) (v.getLsbD n)) ∧
    (∀ (v' : Byte) (n : Nat) (l : Bool), (∀ k < n, v'.getLsbD k = v.getLsbD k) →
      feed W P R v' n l = feed W P R v n l)

/-- R96: the XOR with `P` after the shift subtracts the generator `G = x^W + P`, whose `x^W` term cancels the top bit
moved to position `W`: on 65-bit values the step is the plain shift, less `G` where the top bit was set. -/
def Obligations.BitstepSubtractsGenerator : Prop :=
  ∀ (W : Nat) (P R : Word) (b : Bool), 1 ≤ W → W ≤ 64 → P ≤ mask W → R ≤ mask W →
    let r1 := (R ^^^ (bitWord b <<< (W - 1))).setWidth 65
    let G := (1#65 <<< W) ||| P.setWidth 65
    (bitstep W P R b).setWidth 65 =
      (r1 <<< 1) ^^^ (if r1.getLsbD (W - 1) then G else 0#65)

/-- R97, R98: the table entry is the remainder of eight bit-steps of `i`, most significant bit first, from a zero
register; for `W >= 8` it equals the source's two formulations: `i` in the high byte and 8 plain steps, and `i` in the low
byte and `W` plain steps. -/
def Obligations.TableEqualsSourceFormulations : Prop :=
  (∀ (W : Nat) (P : Word) (i : Byte),
    table W P i =
      bitstep W P (bitstep W P (bitstep W P (bitstep W P (bitstep W P (bitstep W P (bitstep W P
        (bitstep W P 0#64 (i.getLsbD 7)) (i.getLsbD 6)) (i.getLsbD 5)) (i.getLsbD 4)) (i.getLsbD 3))
        (i.getLsbD 2)) (i.getLsbD 1)) (i.getLsbD 0)) ∧
  (∀ (W : Nat) (P : Word) (i : Byte), 8 ≤ W → W ≤ 64 → P ≤ mask W →
    table W P i = plainSteps W P 8 (i.setWidth 64 <<< (W - 8)) ∧
    table W P i = plainSteps W P W (i.setWidth 64))

/-- R101: the table-driven byte update equals eight bit-steps in the order `REFIN` sets, at every width. -/
def Obligations.ByteUpdateEqualsEightBitSteps : Prop :=
  ∀ (W : Nat) (P R : Word) (byte : Byte) (refin : Bool), 1 ≤ W → W ≤ 64 → P ≤ mask W → R ≤ mask W →
    bytestep W P refin R byte = feed W P R byte 8 refin

/-- R104 with the table of R103: the reflected register of option (b) follows the remainder, so no command can tell the
two forms apart. -/
def Obligations.ReflectedRegisterFollowsRemainder : Prop :=
  ∀ (W : Nat) (P R : Word) (byte : Byte), 1 ≤ W → W ≤ 64 → P ≤ mask W → R ≤ mask W →
    reflect (bytestepReflected W P (reflect R W) byte) W = bytestep W P true R byte ∧
    bytestepReflected W P (reflect R W) byte = reflect (bytestep W P true R byte) W

/-- R105: on that register the source's rule "reflect iff `REFIN ^ REFOUT`" gives the checksum of R130. -/
def Obligations.ChecksumOnReflectedRegister : Prop :=
  ∀ (W : Nat) (R xorout : Word) (refin refout : Bool), 1 ≤ W → W ≤ 64 → R ≤ mask W →
    xorout ≤ mask W →
    finalValueReflected W refin refout xorout (reflectedRegister W refin R) =
      (if refout then reflect R W else R) ^^^ xorout ∧
    finalValueReflected W refin refout xorout (reflectedRegister W refin R) =
      finalValue W refout xorout R

/-- R106: the bit-step, the feed, the byte update and the table are linear over GF(2). -/
def Obligations.UpdatesAreLinear : Prop :=
  ∀ (W : Nat) (P : Word), 1 ≤ W → W ≤ 64 →
    (∀ (R R' : Word) (b b' : Bool),
      bitstep W P (R ^^^ R') (b ^^ b') = bitstep W P R b ^^^ bitstep W P R' b') ∧
    (∀ (R R' : Word) (v v' : Byte) (n : Nat) (l : Bool),
      feed W P (R ^^^ R') (v ^^^ v') n l = feed W P R v n l ^^^ feed W P R' v' n l) ∧
    (∀ (R R' : Word) (v v' : Byte) (refin : Bool),
      bytestep W P refin (R ^^^ R') (v ^^^ v') =
        bytestep W P refin R v ^^^ bytestep W P refin R' v') ∧
    (∀ i j : Byte, table W P (i ^^^ j) = table W P i ^^^ table W P j) ∧
    table W P 0#8 = 0#64

open Polynomial in
/-- R107: reading a `W`-bit value as a polynomial over GF(2), a bit-step is `(R·x + b·x^W) mod (x^W + P)`, and feeding
the bits `m_1 .. m_k` gives `(R·x^k + Σ m_j·x^(W+k-j)) mod (x^W + P)`. -/
def Obligations.FeedIsPolynomialRemainder : Prop :=
  ∀ (W : Nat) (P R : Word), 1 ≤ W → W ≤ 64 → P ≤ mask W → R ≤ mask W →
    let poly := fun v : Word =>
      ∑ k ∈ Finset.range W, if v.getLsbD k then (X : (ZMod 2)[X]) ^ k else 0
    let G := (X : (ZMod 2)[X]) ^ W + poly P
    (∀ b : Bool, poly (bitstep W P R b) = (poly R * X + (if b then X ^ W else 0)) %ₘ G) ∧
    (∀ bits : List Bool, poly (feedBits W P R bits) =
      (poly R * X ^ bits.length +
        ∑ j ∈ Finset.range bits.length,
          if bits.getD j false then X ^ (W + bits.length - (j + 1)) else 0) %ₘ G)

/-- R108, its last clause: every result of the datapath fits in `W` bits. -/
def Obligations.DatapathResultsFit : Prop :=
  ∀ (W : Nat) (P R x : Word) (v byte : Byte) (b l refin refout : Bool) (n : Nat),
    1 ≤ W → W ≤ 64 → P ≤ mask W → R ≤ mask W →
    bitstep W P R b ≤ mask W ∧ feed W P R v n l ≤ mask W ∧ table W P v ≤ mask W ∧
    bytestep W P refin R byte ≤ mask W ∧ reflect x W ≤ mask W ∧ finalValue W refout x R ≤ mask W

/-- §8 of the source (95_test_vectors.md 1.1): the four check values over the bytes of "123456789". -/
def Obligations.SourceCheckValues : Prop :=
  let check := fun (W : Nat) (P init x : Word) (ri ro : Bool) =>
    finalValue W ro x
      ([0x31#8, 0x32#8, 0x33#8, 0x34#8, 0x35#8, 0x36#8, 0x37#8, 0x38#8, 0x39#8].foldl
        (bytestep W P ri) init)
  check 12 0x80F#64 0#64 0#64 false true = 0xDAF#64 ∧
  check 16 0x8005#64 0#64 0xFFFF#64 true true = 0x44C2#64 ∧
  check 16 0x1021#64 0xFFFF#64 0#64 false false = 0x29B1#64 ∧
  check 32 0x04C11DB7#64 0xFFFFFFFF#64 0xFFFFFFFF#64 true true = 0xCBF43926#64

/-! ### Configuration and reset commands (41_configure.md) -/

/-- R111: the parameter check, over natural numbers. -/
def Obligations.ValidIsTheRangeCheck : Prop :=
  ∀ (w : BitVec 7) (p i x : Word),
    valid w p i x = true ↔
      1 ≤ w.toNat ∧ w.toNat ≤ 64 ∧ p.toNat ≤ 2 ^ w.toNat - 1 ∧ i.toNat ≤ 2 ^ w.toNat - 1 ∧
        x.toNat ≤ 2 ^ w.toNat - 1

/-- R110, R114: CONFIGURE. In a PROGRAMMABLE instance, whatever it holds, valid parameters load every register, set `REM = i` and
`CFG_VALID = 1`, and the next byte update uses the table of the new `WIDTH` and `POLY`; invalid ones write nothing; in a
FIXED instance it is illegal. -/
def Obligations.ConfigureLoadsOrRefuses : Prop :=
  ∀ (w : BitVec 7) (ri ro : Bool) (p i x : Word),
    encode (.configure w ri ro p i x) =
      [0x1#64 ||| (w.setWidth 64 <<< 20) ||| (bitWord ri <<< 27) ||| (bitWord ro <<< 28), p, i, x] ∧
    (∀ s : State, s.mode = .programmable → valid w p i x = true →
      ∃ t, exec (.configure w ri ro p i x) s = .next t ∧ t.cfgValid = true ∧
        t.block = .programmable (some ⟨⟨w, p, i, x, ri, ro⟩, i⟩) ∧ Answered s t 0x100#64 0#64 ∧
        ∀ byte : Byte, ∃ u, exec (.processByte byte) t = .next u ∧
          u.engine? = some ⟨⟨w, p, i, x, ri, ro⟩,
            if 8 ≤ w.toNat then ((i <<< 8) &&& mask w.toNat) ^^^
              table w.toNat p (romIndex w.toNat i (inputByte ri byte))
            else table w.toNat p (romIndex w.toNat i (inputByte ri byte))⟩) ∧
    (∀ s : State, s.mode = .programmable → valid w p i x = false →
      ∃ t, exec (.configure w ri ro p i x) s = .next t ∧ t.block = s.block ∧
        Answered s t 0x101#64 0#64) ∧
    (∀ (s : State) (q : Params), s.mode = .fixed q →
      ∃ t, exec (.configure w ri ro p i x) s = .next t ∧ t.block = s.block ∧
        Answered s t 0x103#64 0#64) ∧
    ReservedBitsIllegal 0x1#4 [(0x1#64, 0xFFFFFFFFE00FFFFF#64)] 0x103#64

/-- R112: RESET loads `INIT & mask(WIDTH)` into `REM` and writes nothing else; straight after CONFIGURE it changes
nothing. -/
def Obligations.ResetLoadsInit : Prop :=
  encode .reset = [0x2#64] ∧
  RefusedUnconfigured .reset 0x204#64 ∧
  WritesRem .reset 0x200#64 (fun e => e.params.init &&& mask e.params.width.toNat) ∧
  (∀ (s : State) (p : Params), s.engine? = some ⟨p, p.init⟩ → paramsValid p = true →
    ∃ t, exec .reset s = .next t ∧ t.block = s.block) ∧
  ReservedBitsIllegal 0x2#4 [(0x2#64, 0xFFFFFFFFFFFFFFFF#64), (0x20000002#64, 0xFFFFFFFFFFFFFFFF#64)]
    0x203#64

/-- R113: RESET_INIT loads its masked operand into `REM`; `INIT` is not written, so a later RESET still loads it. -/
def Obligations.ResetInitMasksOperand : Prop :=
  ∀ r : Word,
    encode (.resetInit r) = [0x20000002#64, r] ∧
    RefusedUnconfigured (.resetInit r) 0x204#64 ∧
    WritesRem (.resetInit r) 0x200#64 (fun e => r &&& mask e.params.width.toNat) ∧
    (∀ (s : State) (e : Engine), s.engine? = some e →
      ∃ t, runCommands (programWords [.resetInit r, .getInitialRemainder, .reset]) s = .next t ∧
        t.engine? = some { e with rem := e.params.init &&& mask e.params.width.toNat } ∧
        t.rspQueue = s.rspQueue ++ [0x200#64, 0#64, 0x800#64, e.params.init, 0x200#64, 0#64])

/-- R115: a command reads no state but the registers; `configure; X; reset` leaves the registers of `configure` alone, for
any PROCESS and read commands `X`; a FIXED instance after power-on, or after `reset`, has the registers of a PROGRAMMABLE
one after `configure FIXED_PARAMS`. -/
def Obligations.ResetRestoresPostConstruction : Prop :=
  (∀ (i : Instr) (s s' : State), s.block = s'.block →
    ∃ t t' r0 r1, exec i s = .next t ∧ exec i s' = .next t' ∧ t.block = t'.block ∧
      Answered s t r0 r1 ∧ Answered s' t' r0 r1) ∧
  (∀ (p : Params) (X : List Instr) (s : State), s.mode = .programmable → paramsValid p = true →
    (∀ i ∈ X, isRead i = true ∨ isProcess i = true) →
    ∃ t u,
      runCommands (programWords (.configure p.width p.refin p.refout p.poly p.init p.xorout ::
        (X ++ [.reset]))) s = .next t ∧
      exec (.configure p.width p.refin p.refout p.poly p.init p.xorout) s = .next u ∧
      t.block = u.block) ∧
  (∀ (p : Params) (s f : State) (rem : Word), s.mode = .programmable → paramsValid p = true →
    f.block = .fixed p rem →
    ∃ t u, exec .reset f = .next t ∧
      exec (.configure p.width p.refin p.refout p.poly p.init p.xorout) s = .next u ∧
      t.engine? = u.engine? ∧ f.powerOnReset.engine? = u.engine?)

/-! ### Remainder update commands (42_update.md) -/

/-- R120: PROCESS_BIT advances the remainder by one bit-step, whatever `REFIN` is. -/
def Obligations.ProcessBitAdvances : Prop :=
  ∀ b : Bool,
    encode (.processBit b) = [0x3#64 ||| (bitWord b <<< 8)] ∧
    RefusedUnconfigured (.processBit b) 0x304#64 ∧
    WritesRem (.processBit b) 0x300#64
      (fun e => bitstep e.params.width.toNat e.params.poly e.rem b) ∧
    (∀ (s : State) (e : Engine), s.Inv → s.engine? = some e → e.params.width = 1#7 →
      ∃ t, exec (.processBit b) s = .next t ∧
        t.engine? = some { e with rem := if e.rem ^^^ bitWord b = 0#64 then 0#64 else e.params.poly }) ∧
    ReservedBitsIllegal 0x3#4 [(0x3#64, 0xFFFFFFFFFFFFFEFF#64)] 0x303#64

/-- R121: PROCESS_BITS feeds the low `n` bits of `v` in the order `REFIN` sets, for `n` up to 8; a count of 9..15 is an
error that writes nothing, reported after NOT_CONFIGURED. -/
def Obligations.ProcessBitsFeeds : Prop :=
  ∀ (v : Byte) (n : BitVec 4),
    encode (.processBits v n) = [0x4#64 ||| (v.setWidth 64 <<< 8) ||| (n.setWidth 64 <<< 16)] ∧
    RefusedUnconfigured (.processBits v n) 0x404#64 ∧
    (n.toNat ≤ 8 → WritesRem (.processBits v n) 0x400#64
      (fun e => feed e.params.width.toNat e.params.poly e.rem v n.toNat e.params.refin)) ∧
    (n.toNat = 0 → ∀ s : State, s.cfgValid = true →
      ∃ t, exec (.processBits v n) s = .next t ∧ t.block = s.block) ∧
    (8 < n.toNat → ∀ (s : State) (e : Engine), s.engine? = some e →
      ∃ t, exec (.processBits v n) s = .next t ∧ t.block = s.block ∧ Answered s t 0x402#64 0#64) ∧
    (∀ (v' : Byte) (s : State), (∀ k < n.toNat, v'.getLsbD k = v.getLsbD k) →
      exec (.processBits v' n) s = exec (.processBits v n) s) ∧
    ReservedBitsIllegal 0x4#4 [(0x4#64, 0xFFFFFFFFFFF000FF#64)] 0x403#64

/-- R122: PROCESS_BYTE updates the remainder through the table, which is the feed of all eight bits. -/
def Obligations.ProcessByteUpdates : Prop :=
  ∀ byte : Byte,
    encode (.processByte byte) = [0x5#64 ||| (byte.setWidth 64 <<< 8)] ∧
    RefusedUnconfigured (.processByte byte) 0x504#64 ∧
    WritesRem (.processByte byte) 0x500#64
      (fun e => bytestep e.params.width.toNat e.params.poly e.params.refin e.rem byte) ∧
    (∀ (s : State) (e : Engine), s.Inv → s.engine? = some e →
      ∃ t, exec (.processByte byte) s = .next t ∧
        t.engine? = some { e with
          rem := feed e.params.width.toNat e.params.poly e.rem byte 8 e.params.refin } ∧
        (e.params.width = 8#7 → t.engine? = some { e with
          rem := table 8 e.params.poly (e.rem.setWidth 8 ^^^ inputByte e.params.refin byte) })) ∧
    ReservedBitsIllegal 0x5#4 [(0x5#64, 0xFFFFFFFFFFFF00FF#64)] 0x503#64

/-- R123: the equivalences the source requires: a byte, its eight bits, its two nibbles, and `n` bits as single bits in
the order of R43. -/
def Obligations.UpdateEquivalences : Prop :=
  ∀ (s : State) (e : Engine), s.Inv → s.engine? = some e →
    (∀ b : Byte, SameEffectAt s [.processByte b] [.processBits b 8#4]) ∧
    (∀ b : Byte, SameEffectAt s [.processByte b]
      ((if e.params.refin then [0, 1, 2, 3, 4, 5, 6, 7] else [7, 6, 5, 4, 3, 2, 1, 0]).map fun k =>
        .processBit (b.getLsbD k))) ∧
    (∀ (v : Byte) (n : BitVec 4), n.toNat ≤ 8 → SameEffectAt s [.processBits v n]
      ((List.range n.toNat).map fun k =>
        .processBit (v.getLsbD (if e.params.refin then k else n.toNat - 1 - k)))) ∧
    (∀ b : Byte, SameEffectAt s [.processByte b]
      (if e.params.refin
        then [.processBits (b &&& 0xF#8) 4#4, .processBits (b >>> 4) 4#4]
        else [.processBits (b >>> 4) 4#4, .processBits (b &&& 0xF#8) 4#4]))

/-- R124: `process_bytes` is `LEN` PROCESS_BYTE commands with the host's bytes in ascending addresses, answered by `LEN`
responses; none for `LEN = 0`; all NOT_CONFIGURED on an unconfigured block. -/
def Obligations.ProcessBytesExpands : Prop :=
  ∀ (memRead : Nat → Byte) (ptr len : Nat),
    (processBytes memRead ptr len).length = len ∧
    (∀ k < len, (processBytes memRead ptr len)[k]? = some (.processByte (memRead (ptr + k)))) ∧
    processBytes memRead ptr 0 = [] ∧
    (∀ s : State, ∃ t, runCommands (programWords (processBytes memRead ptr len)) s = .next t ∧
      t.rspQueue = s.rspQueue ++ (List.replicate len
        [if s.cfgValid then 0x500#64 else 0x504#64, 0#64]).flatten ∧
      (s.cfgValid = false → t.block = s.block))

/-- R125: the expansion of `process_bytes` over `x ++ y` (`m` bytes at `ptr`, then `n` more) is the expansion over `x`
followed by the expansion over `y`, and processing `x`, then `y`, gives the checksum of processing `x ++ y`: the remainder
after all `m + n` bytes, published as CHECKSUM publishes it. A PROCESS_BYTE reads only the registers, so any read commands
`X` may stand between the two parts, and the second part may run from any state `s'` that has the registers the first part
left, whatever its instance kind, buffers and host. On an unconfigured block every response is NOT_CONFIGURED, alike on both
sides. -/
def Obligations.ProcessBytesConcatenates : Prop :=
  ∀ (mem : Nat → Byte) (ptr m n : Nat),
    processBytes mem ptr (m + n) = processBytes mem ptr m ++ processBytes mem (ptr + m) n ∧
    ∀ (s : State) (X : List Instr), (∀ i ∈ X, isRead i = true) →
      ∃ a c,
        runCommands (programWords (processBytes mem ptr m ++ X)) s = .next a ∧
        runCommands (programWords (processBytes mem ptr (m + n) ++ [.checksum])) s = .next c ∧
        c.engine? = registersAfter s.engine? ((List.range (m + n)).map fun k => mem (ptr + k)) ∧
        c.rspQueue = s.rspQueue ++ byteResponses s.engine? (m + n) ++ checksumResponse c.engine? ∧
        ∀ s' : State, s'.engine? = a.engine? →
          ∃ b, runCommands (programWords (processBytes mem (ptr + m) n ++ [.checksum])) s' = .next b ∧
            b.engine? = c.engine? ∧
            b.rspQueue = s'.rspQueue ++ byteResponses s.engine? n ++ checksumResponse c.engine?

/-! ### Checksum and accessor commands (43_readout.md) -/

/-- R130: CHECKSUM reflects the remainder iff `REFOUT`, XORs `XOROUT`, masks, and writes no state. -/
def Obligations.ChecksumReadsFinalValue : Prop :=
  encode .checksum = [0x6#64] ∧
  RefusedUnconfigured .checksum 0x604#64 ∧
  ReadsOut .checksum 0x600#64 (fun e =>
    ((if e.params.refout then reflect e.rem e.params.width.toNat else e.rem) ^^^ e.params.xorout) &&&
      mask e.params.width.toNat)

/-- R131, R132, R133: the accessors of `POLY`, `INIT` and `XOROUT`. -/
def Obligations.GetParameterWords : Prop :=
  (encode .getTruncatedPolynomial = [0x7#64] ∧ RefusedUnconfigured .getTruncatedPolynomial 0x704#64 ∧
    ReadsOut .getTruncatedPolynomial 0x700#64 (fun e => e.params.poly)) ∧
  (encode .getInitialRemainder = [0x8#64] ∧ RefusedUnconfigured .getInitialRemainder 0x804#64 ∧
    ReadsOut .getInitialRemainder 0x800#64 (fun e => e.params.init) ∧
    (∀ (r : Word) (s : State) (e : Engine), s.engine? = some e →
      ∃ t, runCommands (programWords [.resetInit r, .getInitialRemainder]) s = .next t ∧
        t.rspQueue = s.rspQueue ++ [0x200#64, 0#64, 0x800#64, e.params.init])) ∧
  (encode .getFinalXorValue = [0x9#64] ∧ RefusedUnconfigured .getFinalXorValue 0x904#64 ∧
    ReadsOut .getFinalXorValue 0x900#64 (fun e => e.params.xorout))

/-- R134, R135: the accessors of `REFIN` and `REFOUT`, which return 0 or 1. -/
def Obligations.GetReflectionFlags : Prop :=
  (encode .getReflectInput = [0xA#64] ∧ RefusedUnconfigured .getReflectInput 0xA04#64 ∧
    ReadsOut .getReflectInput 0xA00#64 (fun e => if e.params.refin then 1#64 else 0#64)) ∧
  (encode .getReflectRemainder = [0xB#64] ∧ RefusedUnconfigured .getReflectRemainder 0xB04#64 ∧
    ReadsOut .getReflectRemainder 0xB00#64 (fun e => if e.params.refout then 1#64 else 0#64))

/-- R136, R137: the interim remainder is `REM`, unreflected and already masked; the bit count is `WIDTH`, in 1..64. -/
def Obligations.GetRemainderAndBitCount : Prop :=
  (encode .getInterimRemainder = [0xC#64] ∧ RefusedUnconfigured .getInterimRemainder 0xC04#64 ∧
    ReadsOut .getInterimRemainder 0xC00#64 (fun e => e.rem)) ∧
  (encode .getBitCount = [0xD#64] ∧ RefusedUnconfigured .getBitCount 0xD04#64 ∧
    ReadsOut .getBitCount 0xD00#64 (fun e => BitVec.ofNat 64 e.params.width.toNat)) ∧
  (∀ (s : State) (e : Engine), s.Inv → s.engine? = some e →
    e.rem = e.rem &&& mask e.params.width.toNat ∧
    1 ≤ e.params.width.toNat ∧ e.params.width.toNat ≤ 64)

/-- R138: a read command answers the same again after any read commands in between, and none of them writes a
register. -/
def Obligations.ReadsArePure : Prop :=
  ∀ (i : Instr) (X : List Instr) (s : State), isRead i = true → (∀ j ∈ X, isRead j = true) →
    ∃ t u r0 r1, exec i s = .next t ∧ t.block = s.block ∧ Answered s t r0 r1 ∧
      runCommands (programWords (X ++ [i])) t = .next u ∧ u.block = s.block ∧
      u.rspQueue.reverse.take 2 = [r1, r0]

/-- R139: the checksum of the empty input, right after CONFIGURE or RESET, and its values for the four parameter sets
of §8. -/
def Obligations.EmptyInputChecksum : Prop :=
  (∀ (p : Params) (s : State), s.mode = .programmable → paramsValid p = true →
    ∃ t, runCommands (programWords
        [.configure p.width p.refin p.refout p.poly p.init p.xorout, .checksum]) s = .next t ∧
      t.rspQueue = s.rspQueue ++ [0x100#64, 0#64, 0x600#64,
        ((if p.refout then reflect p.init p.width.toNat else p.init) ^^^ p.xorout) &&&
          mask p.width.toNat]) ∧
  (∀ (s : State) (e : Engine), s.Inv → s.engine? = some e →
    ∃ t, runCommands (programWords [.reset, .checksum]) s = .next t ∧
      t.rspQueue = s.rspQueue ++ [0x200#64, 0#64, 0x600#64,
        ((if e.params.refout then reflect e.params.init e.params.width.toNat else e.params.init) ^^^
          e.params.xorout) &&& mask e.params.width.toNat]) ∧
  finalValue 12 true 0#64 0#64 = 0#64 ∧ finalValue 16 true 0xFFFF#64 0#64 = 0xFFFF#64 ∧
  finalValue 16 false 0#64 0xFFFF#64 = 0xFFFF#64 ∧
  finalValue 32 true 0xFFFFFFFF#64 0xFFFFFFFF#64 = 0#64

/-! ### Errors (60_exceptions.md) -/

/-- R74, R142, R143: a value of a defined field is never an encoding error: every width and every count decodes to its
command, which then reports the range error. On a PROGRAMMABLE instance CONFIGURE raises PARAMETER_OUT_OF_RANGE exactly
for the five causes; RESET_INIT never does. PROCESS_BITS raises BIT_COUNT_OUT_OF_RANGE exactly for counts above 8. Either
error writes nothing and returns no data. -/
def Obligations.RangeErrorsAreReported : Prop :=
  (∀ (w : BitVec 7) (ri ro : Bool) (p i x : Word) (s : State), s.mode = .programmable →
    decode (encode (.configure w ri ro p i x)) = .ok (.configure w ri ro p i x) ∧
    ∃ t r0, runCommand (encode (.configure w ri ro p i x)) s = .next t ∧ Answered s t r0 0#64 ∧
      (r0 = 0x101#64 ↔ w.toNat = 0 ∨ 64 < w.toNat ∨ 2 ^ w.toNat ≤ p.toNat ∨
        2 ^ w.toNat ≤ i.toNat ∨ 2 ^ w.toNat ≤ x.toNat) ∧
      (r0 = 0x101#64 → t.block = s.block)) ∧
  (∀ (r : Word) (s : State), ∃ t r0, exec (.resetInit r) s = .next t ∧ Answered s t r0 0#64 ∧
    r0 ≠ 0x201#64) ∧
  (∀ (v : Byte) (n : BitVec 4) (s : State), s.cfgValid = true →
    decode (encode (.processBits v n)) = .ok (.processBits v n) ∧
    ∃ t r0, runCommand (encode (.processBits v n)) s = .next t ∧ Answered s t r0 0#64 ∧
      (r0 = 0x402#64 ↔ 8 < n.toNat) ∧ (8 < n.toNat → t.block = s.block))

/-- R145: before the first successful CONFIGURE every other command is answered with NOT_CONFIGURED and writes nothing;
a FIXED instance never raises it. -/
def Obligations.UnconfiguredRefusesAllButConfigure : Prop :=
  (∀ (i : Instr) (s : State), s.mode = .programmable → s.cfgValid = false →
    (∀ w ri ro p ini x, i ≠ .configure w ri ro p ini x) →
    ∃ t, exec i s = .next t ∧ t.block = s.block ∧
      Answered s t ((i.op ++ 0x04#8).setWidth 64) 0#64) ∧
  (∀ (i : Instr) (s : State) (q : Params), s.mode = .fixed q →
    ∃ t r0 r1, exec i s = .next t ∧ Answered s t r0 r1 ∧ r0.extractLsb' 0 8 ≠ 0x04#8)

/-- R147: the status of a command is the first that applies: illegal, not configured, out of range, OK. -/
def Obligations.StatusPriority : Prop :=
  ∀ (h : Word) (ops : List Word) (s : State), ops.length = operandCount h →
    ∃ t data, runCommand (h :: ops) s = .next t ∧
      Answered s t
        ((fieldOp h ++ statusCode
          (match decode (h :: ops) with
            | .error _ => .illegalCommand
            | .ok (.configure w _ _ p i x) =>
              if s.mode ≠ .programmable then .illegalCommand
              else if valid w p i x then .ok else .parameterOutOfRange
            | .ok (.processBits _ n) =>
              if s.cfgValid = false then .notConfigured
              else if 8 < n.toNat then .bitCountOutOfRange else .ok
            | .ok _ => if s.cfgValid then .ok else .notConfigured)).setWidth 64) data

/-! ### Frames, instances and modes -/

/-- The frame of every command (R20, R23 to R31, R47, R48): it answers a next state with one response and changes nothing
else at the interface; the read commands write no register; RESET, RESET_INIT and the PROCESS commands write `REM` only;
no command clears `CFG_VALID`. -/
def Obligations.CommandFrames : Prop :=
  ∀ (i : Instr) (s : State), ∃ t r0 r1, exec i s = .next t ∧ Answered s t r0 r1 ∧
    (isRead i = true → t.block = s.block) ∧
    ((∀ w ri ro p ini x, i ≠ .configure w ri ro p ini x) →
      t.cfgValid = s.cfgValid ∧ t.engine?.map (·.params) = s.engine?.map (·.params)) ∧
    (s.cfgValid = true → t.cfgValid = true)

/-- R22: in a PROGRAMMABLE instance only a successful CONFIGURE sets `CFG_VALID` and only power-on reset clears it; in a
FIXED instance it is 1. -/
def Obligations.CfgValidChanges : Prop :=
  (∀ (s t : State), step s = .next t → s.cfgValid = false → t.cfgValid = true →
    ∃ w v ri ro p i x, HostMove.send w ∈ s.host ∧
      decode (s.cmdBuf ++ [w]) = .ok (.configure v ri ro p i x) ∧ valid v p i x = true) ∧
  (∀ (s t : State), step s = .next t → s.cfgValid = true → t.cfgValid = false →
    HostMove.rst ∈ s.host ∧ t.cmdBuf = [] ∧ t.rspQueue = []) ∧
  (∀ (s : State) (q : Params), s.mode = .fixed q → s.cfgValid = true) ∧
  (∀ d, (State.powerOn .programmable d).cfgValid = false)

/-- R36: no step changes the instance parameters. -/
def Obligations.InstanceParametersNeverChange : Prop :=
  ∀ s t : State, step s = .next t → SameInstance s t

/-- R11: an instance whose `FIXED_PARAMS` fail the check of R111 is refused: it makes no step. -/
def Obligations.InvalidFixedParamsRefused : Prop :=
  ∀ (s : State) (q : Params), s.mode = .fixed q →
    (q.width.toNat = 0 ∨ 64 < q.width.toNat ∨ 2 ^ q.width.toNat ≤ q.poly.toNat ∨
      2 ^ q.width.toNat ≤ q.init.toNat ∨ 2 ^ q.width.toNat ≤ q.xorout.toNat) →
    step s = .refused .notElaborated

/-- R152, step by step: a FIXED instance and its PROGRAMMABLE twin stay twins and stop alike, as long as the host neither
completes a legal CONFIGURE nor asserts `rst`. -/
def Obligations.ModeParityOfSteps : Prop :=
  ∀ f g : State, TwinOf f g → HostMove.rst ∉ f.host →
    (∀ w, HostMove.send w ∈ f.host → isConfigure (f.cmdBuf ++ [w]) = false) →
    (∀ t, step f = .next t → ∃ u, step g = .next u ∧ TwinOf t u) ∧
    (∀ r, step f = .fault r ↔ step g = .fault r) ∧
    (∀ r, step f = .refused r ↔ step g = .refused r)

/-- R152, over whole programs: for every sequence of commands other than CONFIGURE, illegal ones included, a FIXED instance
from power-on gives the responses that a PROGRAMMABLE one gives after `configure FIXED_PARAMS`, its response excluded. -/
def Obligations.ModeParityOfPrograms : Prop :=
  ∀ (p : Params) (d : Nat) (S : List (List Word)), paramsValid p = true →
    (∀ ws ∈ S, isConfigure ws = false) →
    ∃ t u, runCommands S (State.powerOn (.fixed p) d) = .next t ∧
      runCommands (encode (.configure p.width p.refin p.refout p.poly p.init p.xorout) :: S)
        (State.powerOn .programmable d) = .next u ∧
      u.rspQueue = [0x100#64, 0#64] ++ t.rspQueue ∧ u.engine? = t.engine?

/-! ### Reset, ordering, flow control and the host (20_memory.md, 70_reset_and_hazards.md) -/

/-- R160 with the table of R37: asserting `rst` puts every register at its power-on value and empties the command buffer
and the response queue, whatever they held. -/
def Obligations.PowerOnResetClearsAll : Prop :=
  ∀ (s : State) (rest : List HostMove), elaborated s.mode s.rspDepth = true → s.host = .rst :: rest →
    ∃ t, step s = .next t ∧ t.cmdBuf = [] ∧ t.rspQueue = [] ∧ SameInstance s t ∧ t.host = rest ∧
      (s.mode = .programmable → t.cfgValid = false ∧ t.block = .programmable none) ∧
      (∀ q, s.mode = .fixed q → t.cfgValid = true ∧ t.block = .fixed q q.init)

/-- R37: the machine after reset: `CFG_VALID = 0`, no register holds a value, both buffers are empty. That the instance is
PROGRAMMABLE with `RSP_DEPTH = 1` is the model's choice (log 1), and so are the empty `host` and `received` (logs 3, 9). -/
def Obligations.ResetStateIsPowerOn : Prop :=
  State.reset.cfgValid = false ∧ State.reset.engine? = none ∧ State.reset.cmdBuf = [] ∧
  State.reset.rspQueue = [] ∧ State.reset.mode = .programmable ∧ State.reset.rspDepth = 1 ∧
  State.reset.host = [] ∧ State.reset.received = []

/-- The invariant holds right after reset, in every instance that exists. -/
def Obligations.PowerOnStateMeetsInvariant : Prop :=
  State.reset.Inv ∧
  ∀ (m : Mode) (d : Nat), elaborated m d = true → (State.powerOn m d).Inv

/-- R27, R34, R165: every step keeps the invariant: the registers stay below `2^WIDTH` and the parameters valid, the
command buffer never holds a complete command, and the response queue never holds more than `RSP_DEPTH` responses. -/
def Obligations.StepKeepsInvariant : Prop :=
  ∀ s t : State, s.Inv → step s = .next t → t.Inv

/-- R51: responses come back in command order: a step without a reset only appends at most one response behind those
queued and taken so far. -/
def Obligations.ResponsesInCommandOrder : Prop :=
  ∀ s t : State, HostMove.rst ∉ s.host → step s = .next t →
    ∃ new : List Word, (new = [] ∨ new.length = 2) ∧
      t.received ++ t.rspQueue = s.received ++ s.rspQueue ++ new

/-- What a full response queue holds back. R165 says only that the block MAY refuse a word then. That it refuses exactly the
word that would complete a command and accepts any other, and that a response of which one word is left still fills its
place, are the model's choice (log 6); that the first move of the host on the other channel, or the first `rst`, goes ahead
of the waiting word, whose place and the order of the rest of the script are kept, is its choice too (log 3), and so is the
named stop where every move left is a send (log 5). -/
def Obligations.FullQueueHoldsTheWord : Prop :=
  ∀ (s : State) (w : Word) (rest : List HostMove),
    s.Inv → s.host = .send w :: rest → s.room = false →
    (isComplete (s.cmdBuf ++ [w]) = true →
      (∀ (a b : List HostMove) (m : HostMove), rest = a ++ m :: b → (∀ x ∈ a, ∃ w', x = .send w') →
        (m = .take → step s = .next { s with
          rspQueue := s.rspQueue.drop 1, received := s.received ++ s.rspQueue.take 1,
          host := .send w :: (a ++ b) }) ∧
        (m = .rst → step s = .next (State.powerOnReset { s with host := .send w :: (a ++ b) }))) ∧
      ((∀ x ∈ rest, ∃ w', x = .send w') → step s = .fault .responseQueueFull)) ∧
    (isComplete (s.cmdBuf ++ [w]) = false →
      step s = .next { s with cmdBuf := s.cmdBuf ++ [w], host := rest })

/-- R165, "Flow control never changes a result": two runs that start from the same registers and send the same words, and
whose hosts take every response and never assert `rst`, end with the same registers and the same responses, however the
takes fall between the sends and whatever `RSP_DEPTH` is. -/
def Obligations.FlowControlNeverChangesResult : Prop :=
  ∀ (s s' t t' : State) (n n' : Nat),
    s.block = s'.block → s.cmdBuf = s'.cmdBuf → bufferPending s.cmdBuf = true →
    s.received ++ s.rspQueue = s'.received ++ s'.rspQueue →
    sentWords s.host = sentWords s'.host → HostMove.rst ∉ s.host → HostMove.rst ∉ s'.host →
    Host.Core.run Sys2Proof.core n s = .next t → Host.Core.run Sys2Proof.core n' s' = .next t' →
    State.finished t → State.finished t' →
    t.block = t'.block ∧ t.received = t'.received

/-- R168, R170: a host that sends the words of one command and takes its two response words gets exactly the command's
response, and the block is quiescent again, with the registers the command leaves. -/
def Obligations.IssuedCommandCompletes : Prop :=
  ∀ (s : State) (h : Word) (ops : List Word) (rest : List HostMove),
    elaborated s.mode s.rspDepth = true → s.cmdBuf = [] → s.rspQueue = [] →
    ops.length = operandCount h → s.host = issue (h :: ops) ++ rest →
    ∃ (u : State) (r0 r1 : Word),
      runCommand (h :: ops) { s with host := rest } = .next u ∧ Answered { s with host := rest } u r0 r1 ∧
      Host.Core.run Sys2Proof.core (ops.length + 3) s =
        .next { u with rspQueue := [], received := s.received ++ [r0, r1] }

/-- When the host has no move left there is no further step, and the stop says why. The spec says only that such a run is
over when both buffers are empty and that the block waits for ever otherwise (R165, R170, I18); that `step` then ends in a
fault, the names of the three, and that a pending command is the one reported when a response is waiting as well, are the
model's own reading and choice (log 5). -/
def Obligations.WaitingReasons : Prop :=
  ∀ s : State, elaborated s.mode s.rspDepth = true → s.host = [] →
    (step s = .fault .quiescent ↔ s.cmdBuf = [] ∧ s.rspQueue = []) ∧
    (step s = .fault .pendingOperands ↔ s.cmdBuf ≠ []) ∧
    (step s = .fault .untakenResponse ↔ s.cmdBuf = [] ∧ s.rspQueue ≠ [])

/-- R78, R79: a line whose operands fit their fields is assembled to the words of its row; one whose operands do not fit is
refused. -/
def Obligations.AssemblerEncodesOrRefuses : Prop :=
  ∀ (mem : Nat → Byte),
    (∀ w p i x ri ro : Nat,
      (assemble mem (.configure w p i x ri ro)).map programWords =
        if w ≤ 127 ∧ p < 2 ^ 64 ∧ i < 2 ^ 64 ∧ x < 2 ^ 64 ∧ ri ≤ 1 ∧ ro ≤ 1 then
          some [[BitVec.ofNat 64 (1 + w * 2 ^ 20 + ri * 2 ^ 27 + ro * 2 ^ 28), BitVec.ofNat 64 p,
            BitVec.ofNat 64 i, BitVec.ofNat 64 x]]
        else none) ∧
    (∀ v n : Nat, (assemble mem (.processBits v n)).map programWords =
      if v ≤ 255 ∧ n ≤ 15 then some [[BitVec.ofNat 64 (4 + v * 2 ^ 8 + n * 2 ^ 16)]] else none) ∧
    (∀ b : Nat, (assemble mem (.processBit b)).map programWords =
      if b ≤ 1 then some [[BitVec.ofNat 64 (3 + b * 2 ^ 8)]] else none) ∧
    (∀ b : Nat, (assemble mem (.processByte b)).map programWords =
      if b ≤ 255 then some [[BitVec.ofNat 64 (5 + b * 2 ^ 8)]] else none) ∧
    (∀ r : Nat, (assemble mem (.resetInit r)).map programWords =
      if r < 2 ^ 64 then some [[0x20000002#64, BitVec.ofNat 64 r]] else none)
end

