-- ==== Sys2Proof/Laws/Datapath.lean ====
section
/-! SUPPORT. Small lemmas of the datapath functions. -/

namespace Sys2Proof

@[simp] theorem bitWord_true : bitWord true = 1#64 := rfl
@[simp] theorem bitWord_false : bitWord false = 0#64 := rfl

/-- Only bit 0 of a single bit's word can be one. -/
theorem bitWord_getLsbD (b : Bool) (k : Nat) : (bitWord b).getLsbD k = (b && decide (k = 0)) := by
  cases b <;> simp [bitWord, BitVec.getLsbD_one]

end Sys2Proof

namespace Sys2Proof.Machine

/-- A bit of a mask, at any width argument. -/
theorem mask_getLsbD (W k : Nat) : (mask W).getLsbD k = decide (64 - W + k < 64) := by
  rw [mask, BitVec.getLsbD_ushiftRight, BitVec.getLsbD_allOnes]

@[simp] theorem reflectLoop_zero (v : Word) (n : Nat) : reflectLoop v n 0 = 0#64 := rfl

@[simp] theorem reflectLoop_succ (v : Word) (n i : Nat) :
    reflectLoop v n (i + 1) = reflectLoop v n i ||| (bitWord (v.getLsbD i) <<< (n - 1 - i)) := rfl

@[simp] theorem feedBits_nil (W : Nat) (P R : Word) : feedBits W P R [] = R := rfl

@[simp] theorem feedBits_cons (W : Nat) (P R : Word) (b : Bool) (bs : List Bool) :
    feedBits W P R (b :: bs) = feedBits W P (bitstep W P R b) bs := rfl

@[simp] theorem feedBits_append (W : Nat) (P R : Word) (as bs : List Bool) :
    feedBits W P R (as ++ bs) = feedBits W P (feedBits W P R as) bs := by
  simp [feedBits]

@[simp] theorem messageBits_length (v : Byte) (n : Nat) (l : Bool) :
    (messageBits v n l).length = n := by
  simp [messageBits]

/-- The least significant bit first: one more bit comes last. -/
theorem messageBits_succ_lsb (v : Byte) (n : Nat) :
    messageBits v (n + 1) true = messageBits v n true ++ [v.getLsbD n] := by
  simp [messageBits, List.range_succ]

/-- The most significant bit first: one more bit comes first. -/
theorem messageBits_succ_msb (v : Byte) (n : Nat) :
    messageBits v (n + 1) false = v.getLsbD n :: messageBits v n false := by
  simp only [messageBits, List.range_succ_eq_map, List.map_cons, List.map_map]
  congr 1
  refine List.map_congr_left fun k hk => ?_
  have : k < n := by simpa using hk
  simp [show n - (k + 1) = n - 1 - k by omega]

@[simp] theorem plainSteps_zero (W : Nat) (P R : Word) : plainSteps W P 0 R = R := rfl

@[simp] theorem plainSteps_succ (W : Nat) (P R : Word) (n : Nat) :
    plainSteps W P (n + 1) R = plainSteps W P n (plainStep W P R) := rfl

/-- A bit-step with a zero message bit is a plain division step. -/
theorem bitstep_false (W : Nat) (P R : Word) : bitstep W P R false = plainStep W P R := by
  simp [bitstep, plainStep]

/-- A bit-step is a plain step on the register with the bit added at the top (R94). -/
theorem bitstep_eq_plainStep (W : Nat) (P R : Word) (b : Bool) :
    bitstep W P R b = plainStep W P (R ^^^ (bitWord b <<< (W - 1))) := rfl

end Sys2Proof.Machine
end

