-- ==== Sys2Proof/Laws/Decode.lean ====
section
/-! SUPPORT. Small facts about command words. -/

namespace Sys2Proof

/-- A command's words are its header and its operand words. -/
@[simp] theorem encode_eq (i : Instr) : encode i = encodeHeader i :: encodeOperands i := rfl

/-- A list of words is complete once it holds its operand words (R63). -/
@[simp] theorem isComplete_cons (h : Word) (ops : List Word) :
    isComplete (h :: ops) = decide (operandCount h ≤ ops.length) := rfl

@[simp] theorem isComplete_nil : isComplete [] = false := rfl

/-- A row that `selectRow` answers is a row of the map that the header matches. -/
theorem selectRow_some {h : Word} {r : OpcodeRow} (e : selectRow h = some r) :
    r ∈ opcodeMap ∧ r.selects h = true :=
  ⟨List.mem_of_find?_eq_some e, by simpa using List.find?_some e⟩

/-- A header that selects no row is an error of R70 or R71. -/
theorem decode_of_selectRow_none {h : Word} {ops : List Word} (e : selectRow h = none) :
    decode (h :: ops) = .error (if reservedOp (fieldOp h) then .reservedOpcode (fieldOp h)
      else .reservedBits (fieldOp h)) := by
  simp only [decode, e]
  split <;> rfl

end Sys2Proof
end

