-- ==== Sys2Proof/Laws/State.lean ====
section
/-! SUPPORT. One lemma for each field after each update of the state, so that no proof unfolds a record update. -/

namespace Sys2Proof.Machine

/-! ### `respond` and `raise` -/

@[simp] theorem respond_block (op st d) (s : State) : (s.respond op st d).block = s.block := rfl
@[simp] theorem respond_rspDepth (op st d) (s : State) : (s.respond op st d).rspDepth = s.rspDepth := rfl
@[simp] theorem respond_cmdBuf (op st d) (s : State) : (s.respond op st d).cmdBuf = s.cmdBuf := rfl
@[simp] theorem respond_rspQueue (op st d) (s : State) :
    (s.respond op st d).rspQueue = s.rspQueue ++ [rsp0 op st, d] := rfl
@[simp] theorem respond_host (op st d) (s : State) : (s.respond op st d).host = s.host := rfl
@[simp] theorem respond_received (op st d) (s : State) : (s.respond op st d).received = s.received := rfl
@[simp] theorem raise_eq_respond (op st) (s : State) : s.raise op st = s.respond op st 0#64 := rfl

/-! ### `setRem` -/

@[simp] theorem setRem_rspDepth (v) (s : State) : (s.setRem v).rspDepth = s.rspDepth := rfl
@[simp] theorem setRem_cmdBuf (v) (s : State) : (s.setRem v).cmdBuf = s.cmdBuf := rfl
@[simp] theorem setRem_rspQueue (v) (s : State) : (s.setRem v).rspQueue = s.rspQueue := rfl
@[simp] theorem setRem_host (v) (s : State) : (s.setRem v).host = s.host := rfl
@[simp] theorem setRem_received (v) (s : State) : (s.setRem v).received = s.received := rfl

/-! ### `load` -/

@[simp] theorem load_rspDepth (p) (s : State) : (s.load p).rspDepth = s.rspDepth := rfl
@[simp] theorem load_cmdBuf (p) (s : State) : (s.load p).cmdBuf = s.cmdBuf := rfl
@[simp] theorem load_rspQueue (p) (s : State) : (s.load p).rspQueue = s.rspQueue := rfl
@[simp] theorem load_host (p) (s : State) : (s.load p).host = s.host := rfl
@[simp] theorem load_received (p) (s : State) : (s.load p).received = s.received := rfl

/-! ### `takeWord` and `powerOnReset` -/

@[simp] theorem takeWord_block (s : State) : s.takeWord.block = s.block := rfl
@[simp] theorem takeWord_rspDepth (s : State) : s.takeWord.rspDepth = s.rspDepth := rfl
@[simp] theorem takeWord_cmdBuf (s : State) : s.takeWord.cmdBuf = s.cmdBuf := rfl
@[simp] theorem takeWord_rspQueue (s : State) : s.takeWord.rspQueue = s.rspQueue.drop 1 := rfl
@[simp] theorem takeWord_host (s : State) : s.takeWord.host = s.host := rfl
@[simp] theorem takeWord_received (s : State) :
    s.takeWord.received = s.received ++ s.rspQueue.take 1 := rfl
@[simp] theorem powerOnReset_rspDepth (s : State) : s.powerOnReset.rspDepth = s.rspDepth := rfl
@[simp] theorem powerOnReset_cmdBuf (s : State) : s.powerOnReset.cmdBuf = [] := rfl
@[simp] theorem powerOnReset_rspQueue (s : State) : s.powerOnReset.rspQueue = [] := rfl
@[simp] theorem powerOnReset_host (s : State) : s.powerOnReset.host = s.host := rfl
@[simp] theorem powerOnReset_received (s : State) : s.powerOnReset.received = s.received := rfl

/-! ### What the views of the block depend on -/

/-- The registers a command reads are a function of the block. -/
theorem engine?_congr {s t : State} (h : s.block = t.block) : s.engine? = t.engine? := by
  simp [State.engine?, h]

/-- The mode is a function of the block. -/
theorem mode_congr {s t : State} (h : s.block = t.block) : s.mode = t.mode := by
  simp [State.mode, h]

@[simp] theorem respond_engine? (op st d) (s : State) : (s.respond op st d).engine? = s.engine? := rfl
@[simp] theorem respond_mode (op st d) (s : State) : (s.respond op st d).mode = s.mode := rfl
@[simp] theorem respond_cfgValid (op st d) (s : State) : (s.respond op st d).cfgValid = s.cfgValid := rfl
@[simp] theorem takeWord_mode (s : State) : s.takeWord.mode = s.mode := rfl

@[simp] theorem setRem_mode (v) (s : State) : (s.setRem v).mode = s.mode := by
  obtain ⟨⟨_ | _⟩ | _, _⟩ := s <;> rfl

@[simp] theorem load_mode (p) (s : State) : (s.load p).mode = s.mode := by
  obtain ⟨_ | _, _⟩ := s <;> rfl

@[simp] theorem powerOnReset_mode (s : State) : s.powerOnReset.mode = s.mode := by
  obtain ⟨_ | _, _⟩ := s <;> rfl

/-- `REM <- v`, seen through the registers: only `REM` changes. -/
@[simp] theorem setRem_engine? (v) (s : State) :
    (s.setRem v).engine? = s.engine?.map fun e => { e with rem := v } := by
  obtain ⟨⟨_ | _⟩ | _, _⟩ := s <;> rfl

@[simp] theorem setRem_cfgValid (v) (s : State) : (s.setRem v).cfgValid = s.cfgValid := by
  simp [State.cfgValid]

/-- Writing `REM` with the value it holds changes nothing. -/
theorem setRem_self {s : State} {e : Engine} (h : s.engine? = some e) : s.setRem e.rem = s := by
  obtain ⟨⟨_ | _⟩ | _, _⟩ := s <;> simp_all [State.engine?, State.setRem]
  rw [← h]

/-- CONFIGURE's writes on a PROGRAMMABLE instance. -/
theorem load_block_of_programmable {s : State} (p : Params) (h : s.mode = .programmable) :
    (s.load p).block = .programmable (some ⟨p, p.init &&& mask p.width.toNat⟩) := by
  obtain ⟨_ | _, _⟩ := s <;> simp_all [State.mode, State.load]

/-- In a FIXED instance the parameter registers are hardwired (R23 to R31). -/
theorem engine?_of_fixed {s : State} {q : Params} (h : s.mode = .fixed q) :
    ∃ r, s.block = .fixed q r ∧ s.engine? = some ⟨q, r⟩ := by
  obtain ⟨_ | ⟨p, r⟩, _⟩ := s <;> simp_all [State.mode, State.engine?]

/-- Two states with the same mode and the same registers have the same block. -/
theorem block_ext {s t : State} (hm : s.mode = t.mode) (he : s.engine? = t.engine?) :
    s.block = t.block := by
  obtain ⟨_ | _, _⟩ := s <;> obtain ⟨_ | _, _⟩ := t <;> simp_all [State.mode, State.engine?]

/-- The state of R37 is the power-on reset of any state of the same instance, but for the host's own two fields. -/
theorem powerOn_eq_powerOnReset (s : State) :
    State.powerOn s.mode s.rspDepth = { s.powerOnReset with host := [], received := [] } := by
  obtain ⟨_ | _, _⟩ := s <;> rfl

end Sys2Proof.Machine
end

