-- ==== Sys2Proof/Laws/Ops.lean ====
section
/-! SUPPORT. One lemma for each shared operation, saying everything it can do; provers cite these instead of unfolding. -/

namespace Sys2Proof.Machine

/-- `respond` queues one response and changes nothing else. -/
theorem answered_respond (op st d) (s : State) : Answered s (s.respond op st d) (rsp0 op st) d := by
  simp [Answered, SameInstance]

/-- `REM <- v; respond` queues one response and changes nothing else at the interface. -/
theorem answered_setRem_respond (v op st d) (s : State) :
    Answered s ((s.setRem v).respond op st d) (rsp0 op st) d := by
  simp [Answered, SameInstance]

/-- CONFIGURE's writes, then `respond`. -/
theorem answered_load_respond (p op st d) (s : State) :
    Answered s ((s.load p).respond op st d) (rsp0 op st) d := by
  simp [Answered, SameInstance]

theorem withEngine_none {s : State} (op k) (h : s.engine? = none) :
    withEngine op k s = .next (s.respond op .notConfigured 0#64) := by
  simp [withEngine, h]

theorem withEngine_some {s : State} {e : Engine} (op k) (h : s.engine? = some e) :
    withEngine op k s = .next (k e) := by
  simp [withEngine, h]

theorem updateRem_none {s : State} (op f) (h : s.engine? = none) :
    updateRem op f s = .next (s.respond op .notConfigured 0#64) :=
  withEngine_none _ _ h

theorem updateRem_some {s : State} {e : Engine} (op f) (h : s.engine? = some e) :
    updateRem op f s = .next ((s.setRem (f e)).respond op .ok 0#64) :=
  withEngine_some _ _ h

theorem readOut_none {s : State} (op f) (h : s.engine? = none) :
    readOut op f s = .next (s.respond op .notConfigured 0#64) :=
  withEngine_none _ _ h

theorem readOut_some {s : State} {e : Engine} (op f) (h : s.engine? = some e) :
    readOut op f s = .next (s.respond op .ok (f e)) :=
  withEngine_some _ _ h

/-- Everything `updateRem` can do. -/
theorem updateRem_cases (op f) (s : State) :
    (s.engine? = none ∧ updateRem op f s = .next (s.respond op .notConfigured 0#64)) ∨
    (∃ e, s.engine? = some e ∧ updateRem op f s = .next ((s.setRem (f e)).respond op .ok 0#64)) := by
  cases h : s.engine? with
  | none => exact .inl ⟨rfl, updateRem_none op f h⟩
  | some e => exact .inr ⟨e, rfl, updateRem_some op f h⟩

/-- Everything `readOut` can do. -/
theorem readOut_cases (op f) (s : State) :
    (s.engine? = none ∧ readOut op f s = .next (s.respond op .notConfigured 0#64)) ∨
    (∃ e, s.engine? = some e ∧ readOut op f s = .next (s.respond op .ok (f e))) := by
  cases h : s.engine? with
  | none => exact .inl ⟨rfl, readOut_none op f h⟩
  | some e => exact .inr ⟨e, rfl, readOut_some op f h⟩

/-- The responses, as the numbers of R75. -/
theorem rsp0_toNat (op : BitVec 4) (st : Status) :
    (rsp0 op st).toNat = op.toNat * 256 + (statusCode st).toNat := by
  cases st <;> revert op <;> decide

/-- The status field of a response. -/
@[simp] theorem rsp0_status (op : BitVec 4) (st : Status) :
    (rsp0 op st).extractLsb' 0 8 = statusCode st := by
  cases st <;> revert op <;> decide

/-- The opcode echo of a response. -/
@[simp] theorem rsp0_op (op : BitVec 4) (st : Status) : (rsp0 op st).extractLsb' 8 4 = op := by
  cases st <;> revert op <;> decide

/-- The rest of `RSP0` is zero. -/
@[simp] theorem rsp0_high (op : BitVec 4) (st : Status) : (rsp0 op st).extractLsb' 12 52 = 0#52 := by
  cases st <;> revert op <;> decide

end Sys2Proof.Machine
end

