-- ==== Sys2Proof/Laws/Exec.lean ====
section
/-! SUPPORT. What each command's meaning does, in terms of the shared operations, and the one inversion lemma of `exec`. -/

namespace Sys2Proof.Machine

/-- Everything CONFIGURE can do (R110). -/
theorem exec_configure_cases (w ri ro p ini x) (s : State) :
    (∃ q, s.mode = .fixed q ∧ exec (.configure w ri ro p ini x) s =
      .next (s.respond 0x1#4 .illegalCommand 0#64)) ∨
    (s.mode = .programmable ∧ valid w p ini x = true ∧ exec (.configure w ri ro p ini x) s =
      .next ((s.load ⟨w, p, ini, x, ri, ro⟩).respond 0x1#4 .ok 0#64)) ∨
    (s.mode = .programmable ∧ valid w p ini x = false ∧ exec (.configure w ri ro p ini x) s =
      .next (s.respond 0x1#4 .parameterOutOfRange 0#64)) := by
  cases hm : s.mode with
  | fixed q => exact .inl ⟨q, rfl, by simp [exec, execConfigure, hm]⟩
  | programmable =>
    cases hv : valid w p ini x with
    | true => exact .inr (.inl ⟨rfl, rfl, by simp [exec, execConfigure, hm, hv]⟩)
    | false => exact .inr (.inr ⟨rfl, rfl, by simp [exec, execConfigure, hm, hv]⟩)

/-- Everything PROCESS_BITS can do (R121). -/
theorem exec_processBits_cases (v n) (s : State) :
    (s.engine? = none ∧ exec (.processBits v n) s =
      .next (s.respond 0x4#4 .notConfigured 0#64)) ∨
    (∃ e, s.engine? = some e ∧ n.toNat ≤ 8 ∧ exec (.processBits v n) s =
      .next ((s.setRem (feed e.params.width.toNat e.params.poly e.rem v n.toNat
        e.params.refin)).respond 0x4#4 .ok 0#64)) ∨
    (∃ e, s.engine? = some e ∧ 8 < n.toNat ∧ exec (.processBits v n) s =
      .next (s.respond 0x4#4 .bitCountOutOfRange 0#64)) := by
  cases h : s.engine? with
  | none => exact .inl ⟨rfl, withEngine_none _ _ h⟩
  | some e =>
    by_cases hn : n.toNat ≤ 8
    · refine .inr (.inl ⟨e, rfl, hn, ?_⟩)
      simp [exec, execProcessBits, withEngine, h, bitCountValid, maxBits, hn]
    · refine .inr (.inr ⟨e, rfl, by omega, ?_⟩)
      simp [exec, execProcessBits, withEngine, h, bitCountValid, maxBits, hn]

@[simp] theorem exec_reset (s : State) : exec .reset s =
    updateRem 0x2#4 (fun e => e.params.init &&& mask e.params.width.toNat) s := rfl
@[simp] theorem exec_resetInit (r) (s : State) : exec (.resetInit r) s =
    updateRem 0x2#4 (fun e => r &&& mask e.params.width.toNat) s := rfl
@[simp] theorem exec_processBit (b) (s : State) : exec (.processBit b) s =
    updateRem 0x3#4 (fun e => bitstep e.params.width.toNat e.params.poly e.rem b) s := rfl
@[simp] theorem exec_processByte (byte) (s : State) : exec (.processByte byte) s =
    updateRem 0x5#4
      (fun e => bytestep e.params.width.toNat e.params.poly e.params.refin e.rem byte) s := rfl
@[simp] theorem exec_checksum (s : State) : exec .checksum s =
    readOut 0x6#4 (fun e => finalValue e.params.width.toNat e.params.refout e.params.xorout e.rem) s :=
  rfl
@[simp] theorem exec_getTruncatedPolynomial (s : State) : exec .getTruncatedPolynomial s =
    readOut 0x7#4 (fun e => e.params.poly) s := rfl
@[simp] theorem exec_getInitialRemainder (s : State) : exec .getInitialRemainder s =
    readOut 0x8#4 (fun e => e.params.init) s := rfl
@[simp] theorem exec_getFinalXorValue (s : State) : exec .getFinalXorValue s =
    readOut 0x9#4 (fun e => e.params.xorout) s := rfl
@[simp] theorem exec_getReflectInput (s : State) : exec .getReflectInput s =
    readOut 0xA#4 (fun e => bitWord e.params.refin) s := rfl
@[simp] theorem exec_getReflectRemainder (s : State) : exec .getReflectRemainder s =
    readOut 0xB#4 (fun e => bitWord e.params.refout) s := rfl
@[simp] theorem exec_getInterimRemainder (s : State) : exec .getInterimRemainder s =
    readOut 0xC#4 (fun e => e.rem) s := rfl
@[simp] theorem exec_getBitCount (s : State) : exec .getBitCount s =
    readOut 0xD#4 (fun e => e.params.width.setWidth 64) s := rfl

/-- Everything a command can do: it responds, having written nothing, or `REM`, or (CONFIGURE) every register. -/
theorem exec_cases (i : Instr) (s : State) :
    (∃ st d, exec i s = .next (s.respond i.op st d)) ∨
    (∃ e v, s.engine? = some e ∧ exec i s = .next ((s.setRem v).respond i.op .ok 0#64)) ∨
    (∃ p, s.mode = .programmable ∧ paramsValid p = true ∧
      i = .configure p.width p.refin p.refout p.poly p.init p.xorout ∧
      exec i s = .next ((s.load p).respond i.op .ok 0#64)) := by
  have hu : ∀ op f, updateRem op f s = exec i s → i.op = op →
      (∃ st d, exec i s = .next (s.respond i.op st d)) ∨
      (∃ e v, s.engine? = some e ∧ exec i s = .next ((s.setRem v).respond i.op .ok 0#64)) := by
    intro op f h ho
    subst ho
    rcases updateRem_cases i.op f s with ⟨_, h'⟩ | ⟨e, he, h'⟩
    · exact .inl ⟨_, _, h ▸ h'⟩
    · exact .inr ⟨e, f e, he, h ▸ h'⟩
  have hr : ∀ op f, readOut op f s = exec i s → i.op = op →
      ∃ st d, exec i s = .next (s.respond i.op st d) := by
    intro op f h ho
    subst ho
    rcases readOut_cases i.op f s with ⟨_, h'⟩ | ⟨e, he, h'⟩
    · exact ⟨_, _, h ▸ h'⟩
    · exact ⟨_, _, h ▸ h'⟩
  cases i with
  | configure w ri ro p ini x =>
    rcases exec_configure_cases w ri ro p ini x s with ⟨_, _, h⟩ | ⟨hm, hv, h⟩ | ⟨_, _, h⟩
    · exact .inl ⟨_, _, h⟩
    · exact .inr (.inr ⟨⟨w, p, ini, x, ri, ro⟩, hm, hv, rfl, h⟩)
    · exact .inl ⟨_, _, h⟩
  | processBits v n =>
    rcases exec_processBits_cases v n s with ⟨_, h⟩ | ⟨e, he, _, h⟩ | ⟨_, _, _, h⟩
    · exact .inl ⟨_, _, h⟩
    · exact .inr (.inl ⟨e, _, he, h⟩)
    · exact .inl ⟨_, _, h⟩
  | reset => exact (hu _ _ (exec_reset s).symm rfl).imp_right .inl
  | resetInit r => exact (hu _ _ (exec_resetInit r s).symm rfl).imp_right .inl
  | processBit b => exact (hu _ _ (exec_processBit b s).symm rfl).imp_right .inl
  | processByte byte => exact (hu _ _ (exec_processByte byte s).symm rfl).imp_right .inl
  | checksum => exact .inl (hr _ _ (exec_checksum s).symm rfl)
  | getTruncatedPolynomial => exact .inl (hr _ _ (exec_getTruncatedPolynomial s).symm rfl)
  | getInitialRemainder => exact .inl (hr _ _ (exec_getInitialRemainder s).symm rfl)
  | getFinalXorValue => exact .inl (hr _ _ (exec_getFinalXorValue s).symm rfl)
  | getReflectInput => exact .inl (hr _ _ (exec_getReflectInput s).symm rfl)
  | getReflectRemainder => exact .inl (hr _ _ (exec_getReflectRemainder s).symm rfl)
  | getInterimRemainder => exact .inl (hr _ _ (exec_getInterimRemainder s).symm rfl)
  | getBitCount => exact .inl (hr _ _ (exec_getBitCount s).symm rfl)

end Sys2Proof.Machine
end

