-- ==== Sys2Proof/Laws/PerInstr.lean ====
section
/-! SUPPORT. Facts about every command as syntax, one lemma a constructor. -/

namespace Sys2Proof.Laws.HeaderSelectsItsRow

/-- The header of a command is one the length rule R63 gives exactly its operand words, and its low four bits are the
opcode of its row (R68). -/
def Statement (i : Instr) : Prop :=
  operandCount (encodeHeader i) = (encodeOperands i).length ∧ fieldOp (encodeHeader i) = i.op

theorem configure (w : BitVec 7) (ri ro : Bool) (p ini x : Word) :
    Statement (.configure w ri ro p ini x) := by
  have h : fieldOp (encodeHeader (.configure w ri ro p ini x)) = 0x1#4 := by
    apply BitVec.eq_of_getLsbD_eq
    intro k hk
    cases ri <;> cases ro <;> interval_cases k <;> simp [fieldOp, encodeHeader, bitWord]
  exact ⟨by simp [operandCount, h, encodeOperands], h⟩

theorem reset : Statement .reset := by constructor <;> decide

theorem resetInit (r : Word) : Statement (.resetInit r) := by
  have h : operandCount 0x20000002#64 = 1 ∧ fieldOp 0x20000002#64 = 0x2#4 := by decide
  exact h

theorem processBit (b : Bool) : Statement (.processBit b) := by
  cases b <;> constructor <;> decide

theorem processBits (v : Byte) (n : BitVec 4) : Statement (.processBits v n) := by
  have h : fieldOp (encodeHeader (.processBits v n)) = 0x4#4 := by
    apply BitVec.eq_of_getLsbD_eq
    intro k hk
    interval_cases k <;> simp [fieldOp, encodeHeader]
  exact ⟨by simp [operandCount, h, encodeOperands], h⟩

theorem processByte (byte : Byte) : Statement (.processByte byte) := by
  have h : fieldOp (encodeHeader (.processByte byte)) = 0x5#4 := by
    apply BitVec.eq_of_getLsbD_eq
    intro k hk
    interval_cases k <;> simp [fieldOp, encodeHeader]
  exact ⟨by simp [operandCount, h, encodeOperands], h⟩

theorem checksum : Statement .checksum := by constructor <;> decide

theorem getTruncatedPolynomial : Statement .getTruncatedPolynomial := by constructor <;> decide

theorem getInitialRemainder : Statement .getInitialRemainder := by constructor <;> decide

theorem getFinalXorValue : Statement .getFinalXorValue := by constructor <;> decide

theorem getReflectInput : Statement .getReflectInput := by constructor <;> decide

theorem getReflectRemainder : Statement .getReflectRemainder := by constructor <;> decide

theorem getInterimRemainder : Statement .getInterimRemainder := by constructor <;> decide

theorem getBitCount : Statement .getBitCount := by constructor <;> decide

end Sys2Proof.Laws.HeaderSelectsItsRow
end

