-- ==== Sys2Proof/Laws/Step.lean ====
section
/-! SUPPORT. What one step can do, once, by the host's move. -/

namespace Sys2Proof.Machine

/-- Executing complete words: the meaning of what they decode to, or ILLEGAL_COMMAND with nothing written. -/
theorem runCommand_cases (ws : List Word) (s : State) :
    (∃ i, decode ws = .ok i ∧ runCommand ws s = exec i s) ∨
    (∃ e, decode ws = .error e ∧
      runCommand ws s = .next (s.respond (fieldOp (ws.headD 0#64)) .illegalCommand 0#64)) := by
  cases h : decode ws with
  | ok i => exact .inl ⟨i, rfl, by simp [runCommand, h]⟩
  | error e => exact .inr ⟨e, rfl, by simp [runCommand, h]⟩

/-- A command always answers a next state. -/
theorem runCommand_next (ws : List Word) (s : State) : ∃ t, runCommand ws s = .next t := by
  rcases runCommand_cases ws s with ⟨i, _, h⟩ | ⟨e, _, h⟩
  · rcases exec_cases i s with ⟨st, d, h'⟩ | ⟨e, v, _, h'⟩ | ⟨p, _, _, _, h'⟩ <;> exact ⟨_, h.trans h'⟩
  · exact ⟨_, h⟩

/-- A sequence of commands always answers a next state. -/
theorem runCommands_next (cs : List (List Word)) (s : State) : ∃ t, runCommands cs s = .next t := by
  induction cs generalizing s with
  | nil => exact ⟨s, rfl⟩
  | cons ws cs ih =>
    obtain ⟨t, h⟩ := runCommand_next ws s
    simpa [runCommands, h] using ih t

/-- A sequence of commands, one after the other. -/
theorem runCommands_append (cs ds : List (List Word)) (s : State) :
    runCommands (cs ++ ds) s =
      match runCommands cs s with
      | .next t => runCommands ds t
      | .fault r => .fault r
      | .refused r => .refused r := by
  induction cs generalizing s with
  | nil => rfl
  | cons ws cs ih =>
    obtain ⟨t, h⟩ := runCommand_next ws s
    simp [runCommands, h, ih]

/-- What `nextOther` takes out of a list: a move of another channel, with the moves before it all of the same channel as
the waiting move. -/
theorem nextOther_some {m m' : HostMove} {ms rest : List HostMove}
    (h : nextOther m ms = some (m', rest)) :
    sameChannel m m' = false ∧ ∃ a b, ms = a ++ m' :: b ∧ rest = a ++ b ∧
      ∀ x ∈ a, sameChannel m x = true := by
  induction ms generalizing rest with
  | nil => simp [nextOther] at h
  | cons x xs ih =>
    cases hx : sameChannel m x with
    | false =>
      simp [nextOther, hx] at h
      obtain ⟨rfl, rfl⟩ := h
      exact ⟨hx, [], xs, rfl, rfl, by simp⟩
    | true =>
      cases hn : nextOther m xs with
      | none => simp [nextOther, hx, hn] at h
      | some q =>
        obtain ⟨y, ys⟩ := q
        simp [nextOther, hx, hn] at h
        obtain ⟨rfl, rfl⟩ := h
        obtain ⟨h1, a, b, rfl, rfl, h2⟩ := ih hn
        exact ⟨h1, x :: a, b, rfl, rfl, by simpa [hx] using h2⟩

/-- No move of another channel is left. -/
theorem nextOther_none {m : HostMove} {ms : List HostMove} (h : nextOther m ms = none) :
    ∀ x ∈ ms, sameChannel m x = true := by
  induction ms with
  | nil => simp
  | cons x xs ih =>
    cases hx : sameChannel m x with
    | false => simp [nextOther, hx] at h
    | true =>
      cases hn : nextOther m xs with
      | none => simpa [hx] using ih hn
      | some q => simp [nextOther, hx, hn] at h

/-- The converse: past moves of the waiting move's channel, `nextOther` takes the first other move out. -/
theorem nextOther_append {m x : HostMove} {a b : List HostMove} (hx : sameChannel m x = false)
    (ha : ∀ y ∈ a, sameChannel m y = true) : nextOther m (a ++ x :: b) = some (x, a ++ b) := by
  induction a with
  | nil => simp only [List.nil_append, nextOther, hx]; rfl
  | cons y a ih =>
    simp only [List.cons_append, nextOther, ha y (by simp), ih fun z hz => ha z (by simp [hz])]; rfl

/-- No move of another channel: `nextOther` finds none. -/
theorem nextOther_all_same {m : HostMove} {ms : List HostMove} (h : ∀ x ∈ ms, sameChannel m x = true) :
    nextOther m ms = none := by
  induction ms with
  | nil => rfl
  | cons x xs ih => simp only [nextOther, h x (by simp), ih fun z hz => h z (by simp [hz])]; rfl

/-- `registersAfter` one byte at a time, and over two parts. -/
@[simp] theorem registersAfter_nil (o : Option Engine) : registersAfter o [] = o := by
  simp [registersAfter]
theorem registersAfter_append (o : Option Engine) (x y : List Byte) :
    registersAfter o (x ++ y) = registersAfter (registersAfter o x) y := by
  cases o <;> simp [registersAfter]

/-- The configuration, `CFG_VALID` included, is not touched by message bytes. -/
@[simp] theorem registersAfter_isSome (o : Option Engine) (x : List Byte) :
    (registersAfter o x).isSome = o.isSome := by
  simp [registersAfter]

/-- The responses of two parts, one behind the other. -/
theorem byteResponses_add (o : Option Engine) (m n : Nat) :
    byteResponses o (m + n) = byteResponses o m ++ byteResponses o n := by
  simp only [byteResponses, List.replicate_add, List.flatten_append]

/-- The responses depend on `CFG_VALID` alone. -/
theorem byteResponses_congr {o o' : Option Engine} (h : o.isSome = o'.isSome) (n : Nat) :
    byteResponses o n = byteResponses o' n := by
  simp [byteResponses, h]

/-- Everything a step that answers a next state does: one move `m` of the host's script is carried out, the first one, or
the first that does not wait behind a blocked first one. -/
theorem step_next {s t : State} (h : step s = .next t) :
    elaborated s.mode s.rspDepth = true ∧ ∃ m rest,
      hostMove m { s with host := rest } = .next t ∧
      ((s.host = m :: rest ∧ enabled m s = true) ∨
        ∃ m0 a b, s.host = m0 :: (a ++ m :: b) ∧ rest = m0 :: (a ++ b) ∧ enabled m0 s = false ∧
          sameChannel m0 m = false ∧ ∀ x ∈ a, sameChannel m0 x = true) := by
  unfold step at h
  split at h
  · rename_i he
    refine ⟨he, ?_⟩
    unfold stepHost at h
    split at h
    · cases h
    · rename_i m rest hh
      split at h
      · rename_i hen
        exact ⟨m, rest, h, .inl ⟨hh, hen⟩⟩
      · rename_i hen
        split at h
        · rename_i m' rest' hn
          obtain ⟨h1, a, b, rfl, rfl, h2⟩ := nextOther_some hn
          exact ⟨m', _, h, .inr ⟨m, a, b, hh, rfl, by simpa using hen, h1, h2⟩⟩
        · cases h
  · cases h

/-- The first move, when it can happen, is the step. -/
theorem step_of_enabled {s : State} {m : HostMove} {rest : List HostMove}
    (he : elaborated s.mode s.rspDepth = true) (hh : s.host = m :: rest) (hm : enabled m s = true) :
    step s = hostMove m { s with host := rest } := by
  simp [step, he, stepHost, hh, hm]

end Sys2Proof.Machine
end

