-- ==== Sys2Proof/Tests/Slice0.lean ====
section
/-! SUPPORT. The model's own tests. Every expected number comes from spec/95_test_vectors.md (the part is named) or from
the rule named. The theorems `witness_…` show, for the statement of that name, a state and operands that meet all its
hypotheses (of the clause named, where it has several). -/

namespace Sys2Proof.Tests

open Sys2Proof Sys2Proof.Machine

/-! ### Helpers: the parameter sets of 95_test_vectors.md and small states -/

def crc32 : Params := ⟨32#7, 0x04C11DB7#64, 0xFFFFFFFF#64, 0xFFFFFFFF#64, true, true⟩
def ccitt : Params := ⟨16#7, 0x1021#64, 0xFFFF#64, 0#64, false, false⟩
def umts : Params := ⟨12#7, 0x80F#64, 0#64, 0#64, false, true⟩
def gsm3 : Params := ⟨3#7, 0x3#64, 0#64, 0x7#64, false, false⟩
def one : Params := ⟨1#7, 1#64, 1#64, 1#64, false, false⟩
def xz64 : Params :=
  ⟨64#7, 0x42F0E1EBA9EA3693#64, 0xFFFFFFFFFFFFFFFF#64, 0xFFFFFFFFFFFFFFFF#64, true, true⟩
def badFixed : Params := ⟨16#7, 0x11021#64, 0#64, 0#64, false, false⟩

/-- A configured PROGRAMMABLE instance. -/
def conf (p : Params) (rem : Word) : State :=
  { State.reset with block := .programmable (some ⟨p, rem⟩) }

/-- A FIXED instance. -/
def fixd (p : Params) (rem : Word) : State := { State.reset with block := .fixed p rem }

/-- A state with a script. -/
def script (s : State) (buf : List Word) (ms : List HostMove) : State :=
  { s with cmdBuf := buf, host := ms }

/-- The response a command queues on a state whose queue is empty, and `REM` after it. -/
def outcome (i : Instr) (s : State) : Option (List Word × Option Word) :=
  match exec i s with
  | .next t => some (t.rspQueue, t.engine?.map (·.rem))
  | .fault _ => none
  | .refused _ => none

/-! ### WellFormed: one ill-formed line for each check (R78) -/

theorem test_wf_width : (AsmLine.configure 128 0 0 0 0 0).wellFormed = false := by decide
theorem test_wf_poly : (AsmLine.configure 8 (2 ^ 64) 0 0 0 0).wellFormed = false := by decide
theorem test_wf_init : (AsmLine.configure 8 0 (2 ^ 64) 0 0 0).wellFormed = false := by decide
theorem test_wf_xorout : (AsmLine.configure 8 0 0 (2 ^ 64) 0 0).wellFormed = false := by decide
theorem test_wf_refin : (AsmLine.configure 8 0 0 0 2 0).wellFormed = false := by decide
theorem test_wf_refout : (AsmLine.configure 8 0 0 0 0 2).wellFormed = false := by decide
theorem test_wf_reset_init : (AsmLine.resetInit (2 ^ 64)).wellFormed = false := by decide
theorem test_wf_bit : (AsmLine.processBit 2).wellFormed = false := by decide
theorem test_wf_bits_value : (AsmLine.processBits 256 0).wellFormed = false := by decide
theorem test_wf_bits_count : (AsmLine.processBits 0 16).wellFormed = false := by decide
theorem test_wf_byte : (AsmLine.processByte 256).wellFormed = false := by decide
theorem test_wf_in_field_values_accepted : (AsmLine.configure 127 0 0 0 1 1).wellFormed = true ∧
    (AsmLine.processBits 255 15).wellFormed = true := by decide

/-! ### Decoding: one word for each constructor, written out from R61, R68 and R79 -/

/-- Bits 3:0 = 1, 26:20 = 12 = 0001100, bit 28 = 1: 0x10C00001 (2.5, UMTS). -/
theorem test_decode_configure : decode [0x10C00001#64, 0x80F#64, 0#64, 0#64]
    = .ok (.configure 12#7 false true 0x80F#64 0#64 0#64) := by decide
theorem test_decode_configure_refin : decode [0x09000001#64, 1#64, 2#64, 3#64]
    = .ok (.configure 16#7 true false 1#64 2#64 3#64) := by decide
theorem test_decode_reset : decode [0x2#64] = .ok .reset := by decide
theorem test_decode_reset_init : decode [0x20000002#64, 0x1234#64] = .ok (.resetInit 0x1234#64) := by
  decide
theorem test_decode_process_bit : decode [0x103#64] = .ok (.processBit true) ∧
    decode [0x3#64] = .ok (.processBit false) := by decide
theorem test_decode_process_bits : decode [0x3FE04#64] = .ok (.processBits 0xFE#8 3#4) := by decide
theorem test_decode_process_byte : decode [0x3105#64] = .ok (.processByte 0x31#8) := by decide
theorem test_decode_checksum : decode [0x6#64] = .ok .checksum := by decide
theorem test_decode_get_poly : decode [0x7#64] = .ok .getTruncatedPolynomial := by decide
theorem test_decode_get_init : decode [0x8#64] = .ok .getInitialRemainder := by decide
theorem test_decode_get_xorout : decode [0x9#64] = .ok .getFinalXorValue := by decide
theorem test_decode_get_refin : decode [0xA#64] = .ok .getReflectInput := by decide
theorem test_decode_get_refout : decode [0xB#64] = .ok .getReflectRemainder := by decide
theorem test_decode_get_rem : decode [0xC#64] = .ok .getInterimRemainder := by decide
theorem test_decode_get_width : decode [0xD#64] = .ok .getBitCount := by decide

/-- 2.5: reserved opcodes, and reserved bits 4, 9, 29, 30 and 44. -/
theorem test_decode_reserved : decode [0x0#64] = .error (.reservedOpcode 0x0#4) ∧
    decode [0xE#64] = .error (.reservedOpcode 0xE#4) ∧
    decode [0xF#64] = .error (.reservedOpcode 0xF#4) ∧
    decode [0x15#64] = .error (.reservedBits 0x5#4) ∧
    decode [0x203#64] = .error (.reservedBits 0x3#4) ∧
    decode [0x20000006#64] = .error (.reservedBits 0x6#4) ∧
    decode [0x40000001#64, 0#64, 0#64, 0#64] = .error (.reservedBits 0x1#4) ∧
    decode [0x100000000006#64] = .error (.reservedBits 0x6#4) := by decide

/-- R63: 0x20000012 (bit 4 set) still takes one operand word, 0x40000001 three, 0x20000006 none. -/
theorem test_operand_counts : operandCount 0x20000012#64 = 1 ∧ operandCount 0x40000001#64 = 3 ∧
    operandCount 0x20000006#64 = 0 := by decide

theorem test_rows_do_not_overlap :
    opcodeMap.Pairwise fun r r' => (r.mask &&& r'.mask &&& (r.pattern ^^^ r'.pattern)) ≠ 0#64 := by
  decide

/-- The table's numbering: header in bits 63:0, operand words of zeros above. -/
theorem test_table_word : decodeTableWord 64 0x10C00001
    = some (.configure 12#7 false true 0#64 0#64 0#64) ∧
    decodeTableWord 64 0x3105 = some (.processByte 0x31#8) := by decide

/-! ### Datapath (2.1) -/

theorem test_mask : mask 1 = 1#64 ∧ mask 12 = 0xFFF#64 ∧ mask 64 = 0xFFFFFFFFFFFFFFFF#64 := by decide
theorem test_reflect : reflect 0x31#64 8 = 0x8C#64 ∧ reflect 0x80F#64 12 = 0xF01#64 ∧
    reflect 1#64 64 = 0x8000000000000000#64 ∧ reflect 3#64 1 = 1#64 := by decide
theorem test_bitstep : bitstep 16 0x1021#64 0x8000#64 true = 0#64 ∧
    bitstep 16 0x1021#64 0xFFFF#64 false = 0xEFDF#64 ∧ bitstep 1 0#64 1#64 true = 0#64 ∧
    bitstep 64 0x42F0E1EBA9EA3693#64 (mask 64) false = 0xBD0F1E145615C96D#64 := by decide
theorem test_table : table 16 0x1021#64 0xCE#8 = 0x3882#64 ∧ table 3 0x3#64 0x80#8 = 0x3#64 ∧
    table 64 0x42F0E1EBA9EA3693#64 0x80#8 = 0xF6FAE5C07D3274CD#64 := by decide
theorem test_table_reflected : tableReflected 32 0x04C11DB7#64 0x01#8 = 0x77073096#64 ∧
    tableReflected 32 0x04C11DB7#64 0xFF#8 = 0x2D02EF8D#64 := by decide +kernel
theorem test_bytestep_sub_byte : bytestep 3 0x3#64 false 0x5#64 0x31#8 = 0x1#64 ∧
    bytestep 3 0x3#64 true 0x5#64 0x31#8 = 0#64 ∧
    bytestep 1 1#64 false 0#64 0x31#8 = 1#64 := by decide

/-! ### Commands: at most two each (2.2 to 2.4) -/

theorem test_configure : outcome (.configure 64#7 false false (mask 64) (mask 64) (mask 64)) .reset
    = some ([0x100#64, 0#64], some (mask 64)) := by decide
theorem test_configure_refused : outcome (.configure 16#7 false false 0x1021#64 0x10000#64 0#64)
    (conf crc32 5#64) = some ([0x101#64, 0#64], some 5#64) := by decide
theorem test_reset : outcome .reset (conf ccitt 0xC782#64)
    = some ([0x200#64, 0#64], some 0xFFFF#64) := by decide
theorem test_reset_init : outcome (.resetInit 0xD#64) (conf gsm3 0#64)
    = some ([0x200#64, 0#64], some 0x5#64) := by decide
theorem test_process_bit : outcome (.processBit true) (conf ccitt 0xFFFF#64)
    = some ([0x300#64, 0#64], some 0xFFFE#64) := by decide
theorem test_process_bits : outcome (.processBits 0xFE#8 3#4) (conf { ccitt with refin := true } 0#64)
    = some ([0x400#64, 0#64], some 0x3063#64) := by decide
theorem test_process_bits_refused : outcome (.processBits 0#8 9#4) (conf ccitt 0xC782#64)
    = some ([0x402#64, 0#64], some 0xC782#64) := by decide
theorem test_process_byte : outcome (.processByte 0x31#8) (conf crc32 0xFFFFFFFF#64)
    = some ([0x500#64, 0#64], some 0x1208C43E#64) := by decide
theorem test_process_byte_full_width : outcome (.processByte 0x31#8) (conf xz64 (mask 64))
    = some ([0x500#64, 0#64], some 0x48AC56D65E8F0BAB#64) := by decide
theorem test_checksum_reflects : outcome .checksum (conf umts 0xF5B#64)
    = some ([0x600#64, 0xDAF#64], some 0xF5B#64) := by decide
/-- `REFIN = 1, REFOUT = 0`: `REM` is not reflected. -/
theorem test_checksum_asymmetric :
    outcome .checksum (conf ⟨16#7, 0x1021#64, 0#64, 0#64, true, false⟩ 0x9184#64)
      = some ([0x600#64, 0x9184#64], some 0x9184#64) := by decide
theorem test_get_poly : outcome .getTruncatedPolynomial (conf crc32 0#64)
    = some ([0x700#64, 0x04C11DB7#64], some 0#64) := by decide
theorem test_get_init : outcome .getInitialRemainder (conf ccitt 0x1234#64)
    = some ([0x800#64, 0xFFFF#64], some 0x1234#64) := by decide
theorem test_get_xorout : outcome .getFinalXorValue (conf gsm3 0#64)
    = some ([0x900#64, 0x7#64], some 0#64) := by decide
theorem test_get_refin : outcome .getReflectInput (conf umts 0#64)
    = some ([0xA00#64, 0#64], some 0#64) := by decide
theorem test_get_refout : outcome .getReflectRemainder (conf umts 0#64)
    = some ([0xB00#64, 1#64], some 0#64) := by decide
theorem test_get_rem : outcome .getInterimRemainder (conf umts 0xF5B#64)
    = some ([0xC00#64, 0xF5B#64], some 0xF5B#64) := by decide
theorem test_get_width : outcome .getBitCount (conf crc32 0#64)
    = some ([0xD00#64, 0x20#64], some 0#64) := by decide
/-- 2.5: NOT_CONFIGURED comes before BIT_COUNT. -/
theorem test_unconfigured : outcome (.processBits 0#8 12#4) .reset
    = some ([0x404#64, 0#64], none) := by decide
/-- 2.5: ILLEGAL comes before PARAMETER in a FIXED instance. -/
theorem test_configure_fixed : outcome (.configure 65#7 false false 0#64 0#64 0#64)
    (fixd crc32 7#64) = some ([0x103#64, 0#64], some 7#64) := by decide

/-! ### Steps -/

theorem test_fetch_configure_runs : step (State.reset.withFetchWord 64 0x00100001)
    = exec (.configure 1#7 false false 0#64 0#64 0#64) State.reset := by rfl
theorem test_header_waits : step (script .reset [] [.send 0x20000002#64])
    = .next (script .reset [0x20000002#64] []) := by rfl
/-- 2.5: opcode 0x0 is answered `0x0003 / 0`. -/
theorem test_illegal_header : step (script .reset [] [.send 0x0#64])
    = .next { State.reset with rspQueue := [0x3#64, 0#64] } := by rfl
/-- 2.5: an illegal RESET_INIT still consumes its operand word. -/
theorem test_illegal_consumes_operand : step (script (conf ccitt 1#64) [0x20000012#64] [.send 9#64])
    = .next { conf ccitt 1#64 with rspQueue := [0x203#64, 0#64] } := by rfl
/-- R165: with the queue full, the word waits until the host takes a response word. -/
theorem test_full_queue_waits :
    step { conf ccitt 1#64 with rspQueue := [0x600#64, 5#64], host := [.send 0x6#64, .take] }
      = .next { conf ccitt 1#64 with
          rspQueue := [5#64], received := [0x600#64], host := [.send 0x6#64] } := by rfl
/-- R160: a partly received command and a queued response are discarded. -/
theorem test_rst : step { fixd ccitt 1#64 with cmdBuf := [0x1#64], rspQueue := [0x600#64, 5#64], host := [.rst] }
    = .next (fixd ccitt 0xFFFF#64) := by rfl

/-! ### Assembler (R78, R79) -/

/-- `reset 0x1f ; c` -/
theorem test_parse_reset_init :
    parseLine ['r','e','s','e','t',' ','0','x','1','f',' ',';',' ','c'] = some (some (.resetInit 31)) := by
  decide
/-- `process_bits 5, 3` -/
theorem test_assemble_line : assembleLine (fun _ => 0#8)
    ['p','r','o','c','e','s','s','_','b','i','t','s',' ','5',',',' ','3'] = some [[0x30504#64]] := by
  decide
/-- `process_bit true` and a refused mnemonic. -/
theorem test_parse_boolean :
    parseLine ['p','r','o','c','e','s','s','_','b','i','t',' ','t','r','u','e']
      = some (some (.processBit 1)) ∧ parseLine ['n','o','p'] = none := by decide

/-! ### Witnesses of the statements' hypotheses -/

theorem witness_EncodeOfDecode : decode [0x30504#64] = .ok (.processBits 5#8 3#4) := by decide
theorem witness_HeaderSelectsAtMostOneRow :
    (⟨.reset, 0x2#64, 0xFFFFFFFFFFFFFFFF#64⟩ : OpcodeRow) ∈ opcodeMap ∧
    0x2#64 &&& 0xFFFFFFFFFFFFFFFF#64 = 0x2#64 := by decide
theorem witness_LengthFromHeaderAlone_incomplete : ∃ s : State,
    elaborated s.mode s.rspDepth = true ∧ s.cmdBuf ++ [7#64] = 0x1#64 :: [7#64] ∧
    s.host = .send 7#64 :: [] ∧ [7#64].length < operandCount 0x1#64 ∧ s.room = true :=
  ⟨script .reset [0x1#64] [.send 7#64], by decide⟩
theorem witness_LengthFromHeaderAlone_complete : ∃ s : State,
    elaborated s.mode s.rspDepth = true ∧ s.cmdBuf ++ [7#64] = 0x20000002#64 :: [7#64] ∧
    s.host = .send 7#64 :: [] ∧ [7#64].length = operandCount 0x20000002#64 ∧ s.room = true :=
  ⟨script .reset [0x20000002#64] [.send 7#64], by decide⟩
theorem witness_ReservedOpcodesIllegal : ∃ s : State, elaborated s.mode s.rspDepth = true ∧
    s.room = true ∧ s.cmdBuf = [] ∧ s.host = .send 0xE#64 :: [] ∧ (0xE#64).extractLsb' 0 4 = 0xE#4 :=
  ⟨script .reset [] [.send 0xE#64], by decide⟩
theorem witness_ReservedBitsAreIllegal : ∃ s : State, elaborated s.mode s.rspDepth = true ∧
    s.room = true ∧ s.cmdBuf ++ [9#64] = 0x20000012#64 :: [9#64] ∧
    [9#64].length = operandCount 0x20000012#64 ∧ s.host = .send 9#64 :: [] ∧
    ∀ r ∈ opcodeMap, 0x20000012#64 &&& r.mask ≠ r.pattern :=
  ⟨script .reset [0x20000012#64] [.send 9#64], by decide⟩
theorem witness_ReservedBitsAreIllegal_cases :
    ((0x20000006#64).getLsbD 29 = true ∧ (0x20000006#64).extractLsb' 0 4 ≠ 2#4) ∧
    ((0x203#64).extractLsb' 0 4 = 3#4 ∧ (0x203#64).extractLsb' 9 7 ≠ 0#7) ∧
    (0x15#64).extractLsb' 4 4 ≠ 0#4 ∧ (0x40000001#64).extractLsb' 30 34 ≠ 0#34 := by decide
theorem witness_ConfigureIllegalInFixed : ∃ s : State, s.block = .fixed crc32 7#64 ∧
    elaborated s.mode s.rspDepth = true ∧ s.room = true ∧
    0x1000001#64 &&& 0xFFFFFFFFE00FFFFF#64 = 0x1#64 ∧
    s.cmdBuf = [0x1000001#64, 0x1021#64, 0xFFFF#64] ∧ s.host = .send 0#64 :: [] :=
  ⟨script (fixd crc32 7#64) [0x1000001#64, 0x1021#64, 0xFFFF#64] [.send 0#64], by decide⟩
theorem witness_RangeErrorsAreReported_width : State.reset.mode = .programmable ∧
    (0#7).toNat = 0 ∧ 65 ≤ (65#7).toNat ∧ 65 ≤ (127#7).toNat := by decide
theorem witness_RangeErrorsAreReported_count : (conf ccitt 1#64).cfgValid = true ∧
    9 ≤ (9#4).toNat ∧ 9 ≤ (15#4).toNat := by decide
theorem witness_EveryCommandAnswersOnce : ([] : List Word).length = operandCount 0x15#64 ∧
    [1#64, 2#64, 3#64].length = operandCount 0x40000001#64 ∧
    decode (0x103#64 :: []) = .ok (.processBit true) ∧ isRead (.processBit true) = false := by decide
theorem witness_StepRunsDecodedCommand : ∃ s : State, elaborated s.mode s.rspDepth = true ∧
    s.room = true ∧ s.host = .send 0x1234#64 :: [.take] ∧
    decode (s.cmdBuf ++ [0x1234#64]) = .ok (.resetInit 0x1234#64) :=
  ⟨script (conf ccitt 1#64) [0x20000002#64] [.send 0x1234#64, .take], by decide⟩
/-- Widths 1 and 64 are the bounds of every datapath statement, 8 the bound of R98. -/
theorem witness_Datapath : (1 ≤ 1 ∧ 1 ≤ 64 ∧ (1#64).toNat < 2 ^ 1 ∧ 1#64 ≤ mask 1) ∧
    (1 ≤ 64 ∧ 64 ≤ 64 ∧ xz64.poly ≤ mask 64 ∧ xz64.init ≤ mask 64) ∧
    (8 ≤ 8 ∧ 8 ≤ 64 ∧ 0x07#64 ≤ mask 8) ∧ (0x1021#64 ≤ mask 16 ∧ 0xFFFF#64 ≤ mask 16) := by decide
theorem witness_FeedOrder : ∀ k < 3, (0xFE#8).getLsbD k = (0x06#8).getLsbD k := by decide
theorem witness_ConfigureLoadsOrRefuses : State.reset.mode = .programmable ∧
    valid 16#7 0x1021#64 0xFFFF#64 0#64 = true ∧ valid 1#7 2#64 0#64 0#64 = false ∧
    (fixd crc32 0#64).mode = .fixed crc32 := by decide
theorem witness_ReservedBitsIllegal : (0x41#64).extractLsb' 0 4 = 1#4 ∧
    [1#64, 2#64, 3#64].length = operandCount 0x41#64 ∧
    (∀ r ∈ [(0x1#64, 0xFFFFFFFFE00FFFFF#64)], 0x41#64 &&& r.2 ≠ r.1) :=
  ⟨by decide, by decide, by simp⟩
theorem witness_ReservedBitsIllegal_reset : (0x42#64).extractLsb' 0 4 = 2#4 ∧
    ([] : List Word).length = operandCount 0x42#64 ∧
    (∀ r ∈ [(0x2#64, 0xFFFFFFFFFFFFFFFF#64), (0x20000002#64, 0xFFFFFFFFFFFFFFFF#64)],
      0x42#64 &&& r.2 ≠ r.1) :=
  ⟨by decide, by decide, by simp⟩
theorem witness_ReservedBitsIllegal_process : ((0x203#64).extractLsb' 0 4 = 3#4 ∧
    ([] : List Word).length = operandCount 0x203#64 ∧ 0x203#64 &&& 0xFFFFFFFFFFFFFEFF#64 ≠ 0x3#64) ∧
    ((0x14#64).extractLsb' 0 4 = 4#4 ∧
      ([] : List Word).length = operandCount 0x14#64 ∧ 0x14#64 &&& 0xFFFFFFFFFFF000FF#64 ≠ 0x4#64) ∧
    ((0x15#64).extractLsb' 0 4 = 5#4 ∧
      ([] : List Word).length = operandCount 0x15#64 ∧ 0x15#64 &&& 0xFFFFFFFFFFFF00FF#64 ≠ 0x5#64) := by
  decide
/-- For `RefusedUnconfigured`, and for `WritesRem` and `ReadsOut`. -/
theorem witness_CommandResults : State.reset.engine? = none ∧
    (conf umts 0xF5B#64).engine? = some ⟨umts, 0xF5B#64⟩ ∧
    (fixd crc32 7#64).engine? = some ⟨crc32, 7#64⟩ := by decide
theorem witness_ResetLoadsInit : (conf ccitt ccitt.init).engine? = some ⟨ccitt, ccitt.init⟩ ∧
    paramsValid ccitt = true := by decide
theorem witness_ResetRestoresPostConstruction : (conf crc32 5#64).mode = .programmable ∧
    paramsValid ccitt = true ∧
    (∀ i ∈ [Instr.processByte 0x31#8, .checksum], isRead i = true ∨ isProcess i = true) ∧
    (fixd ccitt 9#64).block = .fixed ccitt 9#64 := by decide
theorem witness_ResetRestoresPostConstruction_block : (conf crc32 5#64).block =
    (script (conf crc32 5#64) [1#64] [.take]).block := by decide
theorem witness_ProcessBitAdvances : (conf one 1#64).Inv ∧
    (conf one 1#64).engine? = some ⟨one, 1#64⟩ ∧ one.width = 1#7 := by decide
theorem witness_ProcessBitsFeeds : (8#4).toNat ≤ 8 ∧ (0#4).toNat = 0 ∧ 8 < (9#4).toNat ∧
    (conf ccitt 1#64).cfgValid = true ∧
    (∀ k < (3#4).toNat, (0xFE#8).getLsbD k = (0x06#8).getLsbD k) := by decide
theorem witness_ProcessByteUpdates : (conf ⟨8#7, 0x07#64, 0#64, 0#64, false, false⟩ 3#64).Inv ∧
    (conf ⟨8#7, 0x07#64, 0#64, 0#64, false, false⟩ 3#64).engine? =
      some ⟨⟨8#7, 0x07#64, 0#64, 0#64, false, false⟩, 3#64⟩ := by decide
theorem witness_UpdateEquivalences : (conf crc32 0x1208C43E#64).Inv ∧
    (conf crc32 0x1208C43E#64).engine? = some ⟨crc32, 0x1208C43E#64⟩ ∧ (8#4).toNat ≤ 8 := by decide
/-- A read command between the two parts, and the second part run from a FIXED instance with the same registers. -/
theorem witness_ProcessBytesConcatenates : ∃ a s' : State,
    (∀ i ∈ [Instr.checksum], isRead i = true) ∧
    runCommands (programWords (processBytes (fun _ => 0x31#8) 0 1 ++ [.checksum])) (conf ccitt 0xFFFF#64)
      = .next a ∧
    s'.engine? = a.engine? ∧ s' ≠ a :=
  ⟨{ conf ccitt 0xC782#64 with rspQueue := [0x500#64, 0#64, 0x600#64, 0xC782#64] }, fixd ccitt 0xC782#64,
    by decide, by rfl, rfl, by decide⟩
theorem witness_ProcessBytesExpands : (2 : Nat) < 3 ∧ State.reset.cfgValid = false := by decide
theorem witness_GetRemainderAndBitCount : (conf crc32 5#64).Inv ∧ (conf crc32 5#64).engine? = some ⟨crc32, 5#64⟩ := by
  decide
theorem witness_ReadsArePure : isRead .checksum = true ∧
    ∀ j ∈ [Instr.getBitCount, .getInterimRemainder], isRead j = true := by decide
theorem witness_EmptyInputChecksum : State.reset.mode = .programmable ∧ paramsValid umts = true ∧
    (conf umts 1#64).Inv ∧ (conf umts 1#64).engine? = some ⟨umts, 1#64⟩ := by decide
theorem witness_UnconfiguredRefusesAllButConfigure : State.reset.mode = .programmable ∧
    State.reset.cfgValid = false ∧ (fixd ccitt 1#64).mode = .fixed ccitt :=
  ⟨rfl, rfl, rfl⟩
theorem witness_UnconfiguredRefusesAllButConfigure_instr :
    ∀ w ri ro p ini x, Instr.reset ≠ .configure w ri ro p ini x := by
  intro w ri ro p ini x h
  cases h
theorem witness_StatusPriority : ([] : List Word).length = operandCount 0xC0014#64 := by decide
theorem witness_CommandFrames : isRead .getBitCount = true ∧ (conf ccitt 1#64).cfgValid = true := by
  decide
theorem witness_CfgValidChanges_set : ∃ s t : State, step s = .next t ∧ s.cfgValid = false ∧
    t.cfgValid = true :=
  ⟨script .reset [0x00100001#64, 1#64, 1#64] [.send 1#64],
    { conf one 1#64 with rspQueue := [0x100#64, 0#64] }, rfl, rfl, rfl⟩
theorem witness_CfgValidChanges_clear : ∃ s t : State, step s = .next t ∧ s.cfgValid = true ∧
    t.cfgValid = false :=
  ⟨script (conf ccitt 1#64) [] [.rst], .reset, rfl, rfl, rfl⟩
theorem witness_CfgValidChanges_fixed : (fixd ccitt 1#64).mode = .fixed ccitt := by decide
theorem witness_InstanceParametersNeverChange : ∃ s t : State, step s = .next t :=
  ⟨script .reset [] [.send 0x6#64], { State.reset with rspQueue := [0x604#64, 0#64] }, rfl⟩
theorem witness_InvalidFixedParamsRefused : (fixd badFixed 0#64).mode = .fixed badFixed ∧
    2 ^ badFixed.width.toNat ≤ badFixed.poly.toNat := by decide
theorem witness_ModeParityOfSteps : ∃ f g : State, TwinOf f g ∧ HostMove.rst ∉ f.host ∧
    (∀ w, HostMove.send w ∈ f.host → isConfigure (f.cmdBuf ++ [w]) = false) := by
  refine ⟨script (fixd ccitt 1#64) [] [.send 0x6#64, .take],
    script (conf ccitt 1#64) [] [.send 0x6#64, .take],
    ⟨⟨ccitt, 1#64⟩, rfl, rfl, by decide, rfl, rfl, rfl, rfl, rfl⟩, by decide, ?_⟩
  intro w hw
  simp only [script, List.mem_cons, HostMove.send.injEq, List.not_mem_nil, or_false,
    reduceCtorEq] at hw
  subst hw
  decide
theorem witness_ModeParityOfPrograms : paramsValid crc32 = true ∧
    ∀ ws ∈ [[0x3105#64], [0xE#64], [0x6#64]], isConfigure ws = false := by decide
theorem witness_PowerOnResetClearsAll : ∃ s : State, elaborated s.mode s.rspDepth = true ∧
    s.host = .rst :: [.take] ∧ s.mode = .fixed ccitt :=
  ⟨script (fixd ccitt 1#64) [0x1#64] [.rst, .take], by decide⟩
theorem witness_PowerOnResetClearsAll_programmable : ∃ s : State,
    elaborated s.mode s.rspDepth = true ∧ s.host = .rst :: [] ∧ s.mode = .programmable :=
  ⟨script (conf ccitt 1#64) [0x1#64] [.rst], by decide⟩
theorem witness_PowerOnStateMeetsInvariant : elaborated (.fixed crc32) 3 = true ∧
    elaborated .programmable 1 = true := by decide
theorem witness_StepKeepsInvariant : ∃ s t : State, s.Inv ∧ step s = .next t :=
  ⟨script (conf ccitt 0xFFFF#64) [] [.send 0x3105#64],
    { conf ccitt 0xC782#64 with rspQueue := [0x500#64, 0#64] }, by decide, by rfl⟩
theorem witness_ResponsesInCommandOrder : ∃ s t : State, HostMove.rst ∉ s.host ∧ step s = .next t :=
  ⟨script (conf ccitt 0xFFFF#64) [] [.send 0xD#64],
    { conf ccitt 0xFFFF#64 with rspQueue := [0xD00#64, 0x10#64] }, by decide, by rfl⟩
/-- A half-taken response fills the queue; the first move behind the waiting sends is a take, and an rst. -/
theorem witness_FullQueueHoldsTheWord : ∀ m ∈ [HostMove.take, .rst], ∃ s : State, s.Inv ∧
    s.host = .send 0x6#64 :: ([.send 0x7#64] ++ m :: [.take]) ∧ s.room = false ∧
    isComplete (s.cmdBuf ++ [0x6#64]) = true ∧ ∀ x ∈ [HostMove.send 0x7#64], ∃ w', x = .send w' :=
  fun m _ => ⟨{ conf ccitt 1#64 with rspQueue := [5#64], host := [.send 0x6#64, .send 0x7#64, m, .take] },
    ⟨rfl, rfl, rfl, by simp [queueFits, conf, State.reset, State.powerOn]⟩, rfl,
    by simp [State.room, conf, State.reset, State.powerOn], rfl, by simp⟩
theorem witness_FullQueueHoldsTheWord_stuck : ∃ s : State, s.Inv ∧ s.host = .send 0x6#64 :: [.send 0x7#64] ∧
    s.room = false ∧ isComplete (s.cmdBuf ++ [0x6#64]) = true ∧
    ∀ x ∈ [HostMove.send 0x7#64], ∃ w', x = .send w' :=
  ⟨{ conf ccitt 1#64 with rspQueue := [0x600#64, 5#64], host := [.send 0x6#64, .send 0x7#64] },
    by decide, rfl, by decide, by decide, by simp⟩
theorem witness_FullQueueHoldsTheWord_incomplete : ∃ s : State, s.Inv ∧ s.host = .send 0x1#64 :: [] ∧
    s.room = false ∧ isComplete (s.cmdBuf ++ [0x1#64]) = false :=
  ⟨{ conf ccitt 1#64 with rspQueue := [0x600#64, 5#64], host := [.send 0x1#64] }, by decide⟩
theorem witness_FlowControlNeverChangesResult : ∃ s s' t : State,
    s.block = s'.block ∧ s.cmdBuf = s'.cmdBuf ∧ bufferPending s.cmdBuf = true ∧
    s.received ++ s.rspQueue = s'.received ++ s'.rspQueue ∧
    sentWords s.host = sentWords s'.host ∧ HostMove.rst ∉ s.host ∧ HostMove.rst ∉ s'.host ∧
    Host.Core.run Sys2Proof.core 3 s = .next t ∧ Host.Core.run Sys2Proof.core 3 s' = .next t ∧
    State.finished t :=
  ⟨script (conf ccitt 1#64) [] [.send 0xC#64, .take, .take],
    script (conf ccitt 1#64) [] [.take, .send 0xC#64, .take],
    { conf ccitt 1#64 with received := [0xC00#64, 1#64] },
    rfl, rfl, rfl, rfl, rfl, by decide, by decide, rfl, rfl, by decide⟩
theorem witness_IssuedCommandCompletes : ∃ s : State, elaborated s.mode s.rspDepth = true ∧
    s.cmdBuf = [] ∧ s.rspQueue = [] ∧ [7#64].length = operandCount 0x20000002#64 ∧
    s.host = issue (0x20000002#64 :: [7#64]) ++ [] :=
  ⟨script (conf ccitt 1#64) [] (issue [0x20000002#64, 7#64]), by decide⟩
/-- The reasons in turn: quiescent, a pending command alone, a pending command and a response, a response alone (here
half taken). -/
theorem witness_WaitingReasons : ∀ q ∈ [([], []), ([0x1#64], []), ([0x1#64], [0x600#64, 5#64]), ([], [5#64])],
    elaborated ({ script .reset q.1 [] with rspQueue := q.2 } : State).mode State.reset.rspDepth = true ∧
    ({ script .reset q.1 [] with rspQueue := q.2 } : State).host = [] := by decide
theorem test_waiting_untaken : step { State.reset with rspQueue := [5#64] } = .fault .untakenResponse := by rfl

end Sys2Proof.Tests
end

/-! PROOF. `MODE` with `FIXED_PARAMS`, and `RSP_DEPTH` (00_scope.md R10, R11; 10_state.md R36): the check R111 makes on
them, read over `Nat`, and that no step changes them. -/

namespace Sys2Proof.Machine

/-! ### The check of R111, over `Nat` -/

theorem mask_toNat {W : Nat} (h : W ≤ 64) : (mask W).toNat = 2 ^ W - 1 := by
  refine Nat.eq_of_testBit_eq fun k => ?_
  rw [BitVec.testBit_toNat, mask_getLsbD, Nat.testBit_two_pow_sub_one]
  exact decide_eq_decide.mpr (by omega)

/-- A word fits under the mask exactly when it fits in the mask's width. -/
theorem le_mask_iff {W : Nat} (h : W ≤ 64) (v : Word) : v ≤ mask W ↔ v.toNat < 2 ^ W := by
  rw [BitVec.le_def, mask_toNat h]
  have := Nat.two_pow_pos W
  omega

/-- `valid` is R111's formula. -/
theorem valid_iff (w : BitVec 7) (p i x : Word) :
    valid w p i x = true ↔ 1 ≤ w.toNat ∧ w.toNat ≤ 64 ∧
      p.toNat < 2 ^ w.toNat ∧ i.toNat < 2 ^ w.toNat ∧ x.toNat < 2 ^ w.toNat := by
  simp only [valid, Bool.and_eq_true, decide_eq_true_eq, and_assoc]
  refine and_congr_right fun _ => and_congr_right fun (hw : w.toNat ≤ 64) => ?_
  rw [le_mask_iff hw, le_mask_iff hw, le_mask_iff hw]

/-- A block that does not exist makes no step (R11, R165). -/
theorem step_of_not_elaborated {s : State} (h : elaborated s.mode s.rspDepth = false) :
    step s = .refused .notElaborated := by
  simp [step, h]

/-- A FIXED block exists only with `FIXED_PARAMS` that pass R111's check (R11). -/
theorem elaborated_fixed_of_invalid {q : Params} (h : paramsValid q = false) (depth : Nat) :
    elaborated (.fixed q) depth = false := by
  simp [elaborated, h]

/-! ### What a command and a move of the host leave unchanged -/

/-- Every command queues one response with its own opcode and changes nothing else outside the registers. -/
theorem exec_answered {i : Instr} {s t : State} (h : exec i s = .next t) :
    ∃ st d, Answered s t (rsp0 i.op st) d := by
  rcases exec_cases i s with ⟨st, d, h'⟩ | ⟨_, v, _, h'⟩ | ⟨p, _, _, _, h'⟩ <;>
    obtain rfl := Host.Outcome.next.inj (h.symm.trans h')
  · exact ⟨st, d, answered_respond ..⟩
  · exact ⟨.ok, _, answered_setRem_respond ..⟩
  · exact ⟨.ok, _, answered_load_respond ..⟩

/-- So does every complete list of command words, legal or not. -/
theorem runCommand_answered {ws : List Word} {s t : State} (h : runCommand ws s = .next t) :
    ∃ op st d, Answered s t (rsp0 op st) d := by
  rcases runCommand_cases ws s with ⟨i, _, h'⟩ | ⟨_, _, h'⟩
  · exact ⟨i.op, exec_answered (h'.symm.trans h)⟩
  · obtain rfl := Host.Outcome.next.inj (h.symm.trans h')
    exact ⟨_, _, _, answered_respond ..⟩

/-- A word the block accepts completes a command, which runs, or joins the command buffer (R63). -/
theorem acceptWord_cases (w : Word) (s : State) :
    (isComplete (s.cmdBuf ++ [w]) = true ∧
      acceptWord w s = runCommand (s.cmdBuf ++ [w]) { s with cmdBuf := [] }) ∨
    (isComplete (s.cmdBuf ++ [w]) = false ∧
      acceptWord w s = .next { s with cmdBuf := s.cmdBuf ++ [w] }) := by
  cases h : isComplete (s.cmdBuf ++ [w]) with
  | true => exact .inl ⟨rfl, by simp [acceptWord, h]⟩
  | false => exact .inr ⟨rfl, by simp [acceptWord, h]⟩

theorem acceptWord_sameInstance {w : Word} {s t : State} (h : acceptWord w s = .next t) :
    SameInstance s t := by
  rcases acceptWord_cases w s with ⟨_, h'⟩ | ⟨_, h'⟩
  · obtain ⟨_, _, _, _, _, _, _, same⟩ := runCommand_answered (h'.symm.trans h)
    exact same
  · obtain rfl := Host.Outcome.next.inj (h.symm.trans h')
    exact ⟨rfl, rfl⟩

theorem hostMove_sameInstance {m : HostMove} {s t : State} (h : hostMove m s = .next t) :
    SameInstance s t := by
  cases m with
  | send w => exact acceptWord_sameInstance h
  | take =>
    obtain rfl := Host.Outcome.next.inj h
    exact ⟨takeWord_mode s, takeWord_rspDepth s⟩
  | rst =>
    obtain rfl := Host.Outcome.next.inj h
    exact ⟨powerOnReset_mode s, powerOnReset_rspDepth s⟩

/-! ### The statements -/

/-- Settles O47: a step is one move of the host, carried out on a state that differs from `s` in the host's script
only, and no move changes the parameters. -/
theorem instanceParametersNeverChange : Obligations.InstanceParametersNeverChange := by
  intro s t h
  obtain ⟨_, _, rest, hmove, _⟩ := step_next h
  have same : SameInstance { s with host := rest } t := hostMove_sameInstance hmove
  exact same

/-- Settles O48: each of the five causes contradicts R111's formula, so the block is not elaborated. -/
theorem invalidFixedParamsRefused : Obligations.InvalidFixedParamsRefused := by
  intro s q hmode hbad
  have hinvalid : paramsValid q = false := by
    rw [← Bool.not_eq_true, paramsValid, valid_iff]
    omega
  exact step_of_not_elaborated (hmode ▸ elaborated_fixed_of_invalid hinvalid s.rspDepth)

end Sys2Proof.Machine

/-! PROOF. The invariant of the machine (10_state.md R27, R34, R37; 70 R165): the values the datapath writes to `REM` fit
in `WIDTH` bits, a step carries out only a move that is enabled, and each enabled move keeps the invariant. With it, what
every command leaves unchanged (R20 to R31, R47, R48) and when `CFG_VALID` changes (R22). -/

namespace Sys2Proof.Machine

/-! ### The datapath writes values under the mask (R108) -/

theorem and_mask_le (v : Word) (W : Nat) : v &&& mask W ≤ mask W := by
  rw [BitVec.le_def, BitVec.toNat_and]
  exact Nat.and_le_right

theorem xor_le_mask {W : Nat} (hW : W ≤ 64) {a b : Word} (ha : a ≤ mask W) (hb : b ≤ mask W) :
    a ^^^ b ≤ mask W := by
  rw [le_mask_iff hW] at ha hb ⊢
  rw [BitVec.toNat_xor]
  exact Nat.xor_lt_two_pow ha hb

theorem bitstep_le_mask {W : Nat} (hW : W ≤ 64) {P : Word} (hP : P ≤ mask W) (R : Word) (b : Bool) :
    bitstep W P R b ≤ mask W := by
  dsimp only [bitstep]
  split
  · exact xor_le_mask hW (and_mask_le ..) hP
  · exact and_mask_le ..

theorem feedBits_le_mask {W : Nat} (hW : W ≤ 64) {P R : Word} (hP : P ≤ mask W) (hR : R ≤ mask W)
    (bits : List Bool) : feedBits W P R bits ≤ mask W := by
  induction bits generalizing R with
  | nil => exact hR
  | cons b bs ih => exact ih (bitstep_le_mask hW hP R b)

theorem feed_le_mask {W : Nat} (hW : W ≤ 64) {P R : Word} (hP : P ≤ mask W) (hR : R ≤ mask W)
    (v : Byte) (n : Nat) (lsbFirst : Bool) : feed W P R v n lsbFirst ≤ mask W :=
  feedBits_le_mask hW hP hR _

theorem table_le_mask {W : Nat} (hW : W ≤ 64) {P : Word} (hP : P ≤ mask W) (i : Byte) :
    table W P i ≤ mask W :=
  feed_le_mask hW hP (BitVec.le_def.mpr (Nat.zero_le _)) i 8 false

theorem bytestep_le_mask {W : Nat} (hW : W ≤ 64) {P : Word} (hP : P ≤ mask W) (refin : Bool) (R : Word)
    (byte : Byte) : bytestep W P refin R byte ≤ mask W := by
  dsimp only [bytestep]
  split
  · exact xor_le_mask hW (and_mask_le ..) (table_le_mask hW hP _)
  · exact table_le_mask hW hP _

/-! ### Registers that fit (R27) -/

theorem engineFits_iff (e : Engine) :
    engineFits e = true ↔ paramsValid e.params = true ∧ e.rem ≤ mask e.params.width.toNat := by
  simp [engineFits]

/-- What the writes of `REM` need of the check of R111. -/
theorem paramsValid_bounds {p : Params} (h : paramsValid p = true) :
    p.width.toNat ≤ 64 ∧ p.poly ≤ mask p.width.toNat ∧ p.init ≤ mask p.width.toNat := by
  obtain ⟨_, hW, hP, hI, _⟩ := (valid_iff ..).mp h
  exact ⟨hW, (le_mask_iff hW _).mpr hP, (le_mask_iff hW _).mpr hI⟩

theorem registersFit_iff (s : State) :
    registersFit s = true ↔ ∀ e, s.engine? = some e → engineFits e = true := by
  unfold registersFit
  cases s.engine? <;> simp

/-- Whether the registers fit depends on the block alone. -/
theorem registersFit_congr {s t : State} (h : s.block = t.block) : registersFit s = registersFit t := by
  simp only [registersFit, engine?_congr h]

@[simp] theorem registersFit_respond (op st d) (s : State) :
    registersFit (s.respond op st d) = registersFit s := rfl

theorem registersFit_setRem {s : State} {e : Engine} {v : Word} (hs : registersFit s = true)
    (he : s.engine? = some e) (hv : v ≤ mask e.params.width.toNat) : registersFit (s.setRem v) = true := by
  obtain ⟨hparams, _⟩ := (engineFits_iff e).mp ((registersFit_iff s).mp hs e he)
  rw [registersFit_iff, setRem_engine?, he]
  rintro _ ⟨⟩
  exact (engineFits_iff _).mpr ⟨hparams, hv⟩

/-- CONFIGURE's writes on a PROGRAMMABLE block, seen through the registers. -/
theorem load_engine?_of_programmable {s : State} (p : Params) (h : s.mode = .programmable) :
    (s.load p).engine? = some ⟨p, p.init &&& mask p.width.toNat⟩ := by
  simp [State.engine?, load_block_of_programmable p h]

theorem registersFit_load {s : State} {p : Params} (hm : s.mode = .programmable)
    (hp : paramsValid p = true) : registersFit (s.load p) = true := by
  rw [registersFit_iff, load_engine?_of_programmable p hm]
  rintro _ ⟨⟩
  exact (engineFits_iff _).mpr ⟨hp, and_mask_le ..⟩

theorem registersFit_powerOn {m : Mode} {d : Nat} (h : elaborated m d = true) :
    registersFit (.powerOn m d) = true := by
  cases m with
  | programmable => rfl
  | fixed p =>
    have hp : paramsValid p = true := by
      rw [← Bool.not_eq_false]
      intro hbad
      simp [elaborated_fixed_of_invalid hbad] at h
    exact (engineFits_iff ⟨p, p.init⟩).mpr ⟨hp, (paramsValid_bounds hp).2.2⟩

/-! ### Commands on the registers (R20 to R31, R47, R48) -/

theorem exec_eq_readOut_of_isRead {i : Instr} (hi : isRead i = true) (s : State) :
    ∃ op f, exec i s = readOut op f s := by
  cases i with
  | checksum | getTruncatedPolynomial | getInitialRemainder | getFinalXorValue | getReflectInput
  | getReflectRemainder | getInterimRemainder | getBitCount => exact ⟨_, _, rfl⟩
  | _ => cases hi

/-- A read command writes no register (R48). -/
theorem exec_block_of_isRead {i : Instr} {s t : State} (hi : isRead i = true)
    (h : exec i s = .next t) : t.block = s.block := by
  obtain ⟨op, f, hread⟩ := exec_eq_readOut_of_isRead hi s
  rcases readOut_cases op f s with ⟨_, h'⟩ | ⟨e, _, h'⟩ <;>
    obtain rfl := Host.Outcome.next.inj (h.symm.trans (hread.trans h')) <;> rfl

/-- A write of `REM` with a value that fits keeps the registers fitting. -/
theorem updateRem_registersFit {op : BitVec 4} {f : Engine → Word} {s t : State}
    (hf : ∀ e, engineFits e = true → f e ≤ mask e.params.width.toNat)
    (hs : registersFit s = true) (h : updateRem op f s = .next t) : registersFit t = true := by
  rcases updateRem_cases op f s with ⟨_, h'⟩ | ⟨e, he, h'⟩ <;>
    obtain rfl := Host.Outcome.next.inj (h.symm.trans h')
  · exact hs
  · exact registersFit_setRem hs he (hf e ((registersFit_iff s).mp hs e he))

/-- Every command keeps the registers fitting: CONFIGURE loads checked parameters and a masked `INIT`, the others write
`REM` through the mask or the datapath, or write nothing. -/
theorem exec_registersFit {i : Instr} {s t : State} (hs : registersFit s = true)
    (h : exec i s = .next t) : registersFit t = true := by
  cases hr : isRead i with
  | true => exact registersFit_congr (exec_block_of_isRead hr h) ▸ hs
  | false =>
    cases i with
    | configure w ri ro p ini x =>
      rcases exec_configure_cases w ri ro p ini x s with ⟨_, _, h'⟩ | ⟨hm, hv, h'⟩ | ⟨_, _, h'⟩ <;>
        obtain rfl := Host.Outcome.next.inj (h.symm.trans h')
      · exact hs
      · exact registersFit_load hm hv
      · exact hs
    | reset => exact updateRem_registersFit (fun _ _ => and_mask_le ..) hs h
    | resetInit r => exact updateRem_registersFit (fun _ _ => and_mask_le ..) hs h
    | processBit b =>
      refine updateRem_registersFit (fun e he => ?_) hs h
      obtain ⟨hW, hP, _⟩ := paramsValid_bounds ((engineFits_iff e).mp he).1
      exact bitstep_le_mask hW hP _ _
    | processBits v n =>
      rcases exec_processBits_cases v n s with ⟨_, h'⟩ | ⟨e, he, _, h'⟩ | ⟨_, _, _, h'⟩ <;>
        obtain rfl := Host.Outcome.next.inj (h.symm.trans h')
      · exact hs
      · obtain ⟨hp, hR⟩ := (engineFits_iff e).mp ((registersFit_iff s).mp hs e he)
        obtain ⟨hW, hP, _⟩ := paramsValid_bounds hp
        exact registersFit_setRem hs he (feed_le_mask hW hP hR ..)
      · exact hs
    | processByte byte =>
      refine updateRem_registersFit (fun e he => ?_) hs h
      obtain ⟨hW, hP, _⟩ := paramsValid_bounds ((engineFits_iff e).mp he).1
      exact bytestep_le_mask hW hP ..
    | _ => cases hr

theorem runCommand_registersFit {ws : List Word} {s t : State} (hs : registersFit s = true)
    (h : runCommand ws s = .next t) : registersFit t = true := by
  rcases runCommand_cases ws s with ⟨i, _, h'⟩ | ⟨_, _, h'⟩
  · exact exec_registersFit hs (h'.symm.trans h)
  · obtain rfl := Host.Outcome.next.inj (h.symm.trans h')
    exact hs

/-- A command other than CONFIGURE writes `REM` at most, so no parameter register and not `CFG_VALID`. -/
theorem exec_params_of_not_configure {i : Instr} {s t : State} (h : exec i s = .next t)
    (hi : ∀ w ri ro p ini x, i ≠ .configure w ri ro p ini x) :
    t.cfgValid = s.cfgValid ∧ t.engine?.map (·.params) = s.engine?.map (·.params) := by
  rcases exec_cases i s with ⟨st, d, h'⟩ | ⟨_, v, _, h'⟩ | ⟨_, _, _, hconf, _⟩
  · obtain rfl := Host.Outcome.next.inj (h.symm.trans h')
    exact ⟨rfl, rfl⟩
  · obtain rfl := Host.Outcome.next.inj (h.symm.trans h')
    simp [Function.comp_def]
  · exact absurd hconf (hi _ _ _ _ _ _)

/-! ### When `CFG_VALID` changes (R22) -/

/-- A command leaves `CFG_VALID` as it is, or is a CONFIGURE with valid parameters and leaves it 1. -/
theorem exec_cfgValid_cases {i : Instr} {s t : State} (h : exec i s = .next t) :
    t.cfgValid = s.cfgValid ∨
      (t.cfgValid = true ∧ ∃ w ri ro p ini x, i = .configure w ri ro p ini x ∧ valid w p ini x = true) := by
  rcases exec_cases i s with ⟨st, d, h'⟩ | ⟨_, v, _, h'⟩ | ⟨p, hm, hp, hi, h'⟩ <;>
    obtain rfl := Host.Outcome.next.inj (h.symm.trans h')
  · exact .inl rfl
  · exact .inl (setRem_cfgValid v s)
  · refine .inr ⟨?_, _, _, _, _, _, _, hi, hp⟩
    simp [State.cfgValid, load_engine?_of_programmable p hm]

/-- So does a word the block accepts: CONFIGURE is then the command it completes. -/
theorem acceptWord_cfgValid_cases {w : Word} {s t : State} (h : acceptWord w s = .next t) :
    t.cfgValid = s.cfgValid ∨
      (t.cfgValid = true ∧ ∃ v ri ro p i x,
        decode (s.cmdBuf ++ [w]) = .ok (.configure v ri ro p i x) ∧ valid v p i x = true) := by
  rcases acceptWord_cases w s with ⟨_, hrun⟩ | ⟨_, hbuf⟩
  · rcases runCommand_cases (s.cmdBuf ++ [w]) { s with cmdBuf := [] } with ⟨i, hdec, h'⟩ | ⟨_, _, h'⟩
    · rcases exec_cfgValid_cases (h'.symm.trans (hrun.symm.trans h)) with hkeep | ⟨ht, hconf⟩
      · exact .inl hkeep
      · obtain ⟨v, ri, ro, p, ini, x, rfl, hv⟩ := hconf
        exact .inr ⟨ht, v, ri, ro, p, ini, x, hdec, hv⟩
    · obtain rfl := Host.Outcome.next.inj (h.symm.trans (hrun.trans h'))
      exact .inl rfl
  · obtain rfl := Host.Outcome.next.inj (h.symm.trans hbuf)
    exact .inl rfl

/-- A FIXED block has `CFG_VALID` hardwired to 1. -/
theorem cfgValid_of_fixed {s : State} {q : Params} (h : s.mode = .fixed q) : s.cfgValid = true := by
  obtain ⟨r, _, he⟩ := engine?_of_fixed h
  simp [State.cfgValid, he]

/-- `rst` clears `CFG_VALID` in a PROGRAMMABLE block (R37). -/
theorem powerOnReset_cfgValid_of_programmable {s : State} (h : s.mode = .programmable) :
    s.powerOnReset.cfgValid = false := by
  obtain ⟨_ | _, _⟩ := s
  · rfl
  · cases h

/-- A move of the host leaves `CFG_VALID` as it is, or is a word that completes a valid CONFIGURE and leaves it 1, or is
`rst` and leaves it 0 with both buffers empty. -/
theorem hostMove_cfgValid_cases {m : HostMove} {s t : State} (h : hostMove m s = .next t) :
    t.cfgValid = s.cfgValid ∨
      (t.cfgValid = true ∧ ∃ w, m = .send w ∧ ∃ v ri ro p i x,
        decode (s.cmdBuf ++ [w]) = .ok (.configure v ri ro p i x) ∧ valid v p i x = true) ∨
      (t.cfgValid = false ∧ m = .rst ∧ t.cmdBuf = [] ∧ t.rspQueue = []) := by
  cases m with
  | send w => exact (acceptWord_cfgValid_cases h).imp_right fun ⟨ht, hconf⟩ => .inl ⟨ht, w, rfl, hconf⟩
  | take =>
    obtain rfl := Host.Outcome.next.inj h
    exact .inl rfl
  | rst =>
    obtain rfl := Host.Outcome.next.inj h
    cases hm : s.mode with
    | programmable => exact .inr (.inr ⟨powerOnReset_cfgValid_of_programmable hm, rfl, rfl, rfl⟩)
    | fixed q =>
      have hm' : s.powerOnReset.mode = .fixed q := (powerOnReset_mode s).trans hm
      exact .inl ((cfgValid_of_fixed hm').trans (cfgValid_of_fixed hm).symm)

/-! ### A step carries out a move that is enabled -/

/-- A command completed now leaves at most `RSP_DEPTH` responses exactly when there is room for its response (R165). -/
theorem room_iff (s : State) : s.room = true ↔ s.rspQueue.length + 2 ≤ 2 * s.rspDepth := by
  simp only [State.room, decide_eq_true_eq]
  omega

theorem depth_pos_of_elaborated {m : Mode} {d : Nat} (h : elaborated m d = true) : 1 ≤ d := by
  simp only [elaborated, Bool.and_eq_true, decide_eq_true_eq] at h
  exact h.1

/-- A word that waits waits for a full queue, which offers a response; a take that waits waits at an empty queue, which
has room. So where one channel waits, the other does not (R168, R169). -/
theorem enabled_of_other_blocked {m m' : HostMove} {s : State} (hd : 1 ≤ s.rspDepth)
    (hm : enabled m s = false) (hother : sameChannel m m' = false) : enabled m' s = true := by
  cases m with
  | rst => cases hm
  | send w =>
    cases m' with
    | send _ => cases hother
    | rst => rfl
    | take =>
      have hfull : ¬ s.room = true := by
        intro hroom
        simp [enabled, hroom] at hm
      rw [room_iff] at hfull
      have hne : s.rspQueue ≠ [] := by
        intro hnil
        rw [hnil, List.length_nil] at hfull
        omega
      simpa [enabled] using hne
  | take =>
    cases m' with
    | take => cases hother
    | rst => rfl
    | send w =>
      have hempty : s.rspQueue = [] := by simpa [enabled] using hm
      have hroom : s.room = true := by
        rw [room_iff, hempty, List.length_nil]
        omega
      simp [enabled, hroom]

/-- A step that answers a next state carries out one enabled move of the host's script. -/
theorem step_next_enabled {s t : State} (h : step s = .next t) :
    ∃ m rest, m ∈ s.host ∧ enabled m s = true ∧ hostMove m { s with host := rest } = .next t := by
  obtain ⟨helab, m, rest, hmove, ⟨hhost, hen⟩ | ⟨m0, a, b, hhost, _, hblocked, hother, _⟩⟩ := step_next h
  · exact ⟨m, rest, by simp [hhost], hen, hmove⟩
  · have hen := enabled_of_other_blocked (depth_pos_of_elaborated helab) hblocked hother
    exact ⟨m, rest, by simp [hhost], hen, hmove⟩

/-! ### The invariant -/

theorem powerOn_inv {m : Mode} {d : Nat} (h : elaborated m d = true) : (State.powerOn m d).Inv := by
  have hmode : (State.powerOn m d).mode = m := by cases m <;> rfl
  refine ⟨?_, registersFit_powerOn h, rfl, ?_⟩
  · rw [hmode]
    exact h
  · simp [queueFits, State.powerOn]

theorem powerOnReset_inv {s : State} (hs : s.Inv) : s.powerOnReset.Inv := by
  have hinv : (State.powerOn s.mode s.rspDepth).Inv := powerOn_inv hs.1
  rw [powerOn_eq_powerOnReset] at hinv
  exact hinv

theorem takeWord_inv {s : State} (hs : s.Inv) : s.takeWord.Inv := by
  obtain ⟨helab, hregs, hbuf, hqueue⟩ := hs
  refine ⟨helab, hregs, hbuf, ?_⟩
  simp only [queueFits, takeWord_rspQueue, takeWord_rspDepth, List.length_drop, decide_eq_true_eq] at hqueue ⊢
  omega

/-- A command that runs while there is room for its response keeps the invariant. -/
theorem runCommand_inv {ws : List Word} {s t : State} (hs : s.Inv) (hroom : s.room = true)
    (h : runCommand ws s = .next t) : t.Inv := by
  obtain ⟨helab, hregs, hbuf, _⟩ := hs
  obtain ⟨_, _, _, hq, hcmd, _, _, hmode, hdepth⟩ := runCommand_answered h
  refine ⟨by rwa [hmode, hdepth], runCommand_registersFit hregs h, by rwa [hcmd], ?_⟩
  simpa [queueFits, hq, hdepth] using (room_iff s).mp hroom

/-- Accepting a word keeps the invariant: it completes a command only while there is room, and the buffer then empties. -/
theorem acceptWord_inv {w : Word} {s t : State} (hs : s.Inv) (hen : enabled (.send w) s = true)
    (h : acceptWord w s = .next t) : t.Inv := by
  obtain ⟨helab, hregs, _, hqueue⟩ := hs
  rcases acceptWord_cases w s with ⟨hc, h'⟩ | ⟨hc, h'⟩
  · have hroom : s.room = true := by simpa [enabled, hc] using hen
    have hempty : ({ s with cmdBuf := [] } : State).Inv := ⟨helab, hregs, rfl, hqueue⟩
    exact runCommand_inv hempty hroom (h'.symm.trans h)
  · obtain rfl := Host.Outcome.next.inj (h.symm.trans h')
    exact ⟨helab, hregs, by simp [bufferPending, hc], hqueue⟩

theorem hostMove_inv {m : HostMove} {s t : State} (hs : s.Inv) (hen : enabled m s = true)
    (h : hostMove m s = .next t) : t.Inv := by
  cases m with
  | send w => exact acceptWord_inv hs hen h
  | take =>
    obtain rfl := Host.Outcome.next.inj h
    exact takeWord_inv hs
  | rst =>
    obtain rfl := Host.Outcome.next.inj h
    exact powerOnReset_inv hs

/-! ### The statements -/

/-- Settles O54: a step is one enabled move of the host, on a state that differs from `s` in the host's script only,
and every enabled move keeps the invariant. -/
theorem stepKeepsInvariant : Obligations.StepKeepsInvariant := by
  intro s t hs h
  obtain ⟨m, rest, _, hen, hmove⟩ := step_next_enabled h
  have hs' : ({ s with host := rest } : State).Inv := hs
  have hen' : enabled m { s with host := rest } = true := by cases m <;> exact hen
  exact hostMove_inv hs' hen' hmove

/-- Settles O46: the move of the step is a word that completes a valid CONFIGURE where `CFG_VALID` is set, and an `rst`
where it is cleared. -/
theorem cfgValidChanges : Obligations.CfgValidChanges := by
  refine ⟨?sets, ?clears, fun _ _ => cfgValid_of_fixed, fun _ => rfl⟩
  case sets =>
    intro s t h hs ht
    obtain ⟨m, rest, hmem, _, hmove⟩ := step_next_enabled h
    rcases hostMove_cfgValid_cases hmove with hkeep | ⟨_, w, rfl, v, ri, ro, p, i, x, hconf⟩ | ⟨hf, _⟩
    · exact absurd (ht.symm.trans (hkeep.trans hs)) (by decide)
    · exact ⟨w, v, ri, ro, p, i, x, hmem, hconf⟩
    · exact absurd (ht.symm.trans hf) (by decide)
  case clears =>
    intro s t h hs ht
    obtain ⟨m, rest, hmem, _, hmove⟩ := step_next_enabled h
    rcases hostMove_cfgValid_cases hmove with hkeep | ⟨htrue, _⟩ | ⟨_, rfl, hempty⟩
    · exact absurd (ht.symm.trans (hkeep.trans hs)) (by decide)
    · exact absurd (ht.symm.trans htrue) (by decide)
    · exact ⟨hmem, hempty⟩

/-- Settles O45: every command answers; a read command writes nothing, one other than CONFIGURE writes `REM` at most,
and CONFIGURE can only set `CFG_VALID`. -/
theorem commandFrames : Obligations.CommandFrames := by
  intro i s
  have hnext : ∃ t, exec i s = .next t := by
    rcases exec_cases i s with ⟨_, _, h⟩ | ⟨_, _, _, h⟩ | ⟨_, _, _, _, h⟩ <;> exact ⟨_, h⟩
  obtain ⟨t, h⟩ := hnext
  obtain ⟨st, d, hans⟩ := exec_answered h
  refine ⟨t, _, d, h, hans, fun hread => exec_block_of_isRead hread h, exec_params_of_not_configure h,
    fun hs => ?_⟩
  rcases exec_cfgValid_cases h with hkeep | ⟨ht, _⟩
  · exact hkeep.trans hs
  · exact ht

/-- Settles O52: `State.reset` is written out so (R37). -/
theorem resetStateIsPowerOn : Obligations.ResetStateIsPowerOn :=
  ⟨rfl, rfl, rfl, rfl, rfl, rfl, rfl, rfl⟩

/-- Settles O53: the power-on state of every block that exists, `State.reset` among them. -/
theorem powerOnStateMeetsInvariant : Obligations.PowerOnStateMeetsInvariant :=
  ⟨powerOn_inv rfl, fun _ _ => powerOn_inv⟩

end Sys2Proof.Machine

/-! PROOF. The order of the responses (20_memory.md R51; 30_encoding.md R75): the words the host has taken and those still
queued form one list, which every move of the host but `rst` extends at its end, by one whole response or by nothing. -/

namespace Sys2Proof.Machine

/-- The response words of `t`, taken and queued, are those of `s` with at most one response, of two words, behind them. -/
abbrev AppendsResponse (s t : State) : Prop :=
  ∃ new : List Word, (new = [] ∨ new.length = 2) ∧
    t.received ++ t.rspQueue = s.received ++ s.rspQueue ++ new

/-- A command's response queues behind all earlier ones. -/
theorem Answered.appendsResponse {s t : State} {r0 r1 : Word} (h : Answered s t r0 r1) :
    AppendsResponse s t := by
  obtain ⟨hqueue, _, _, hreceived, _⟩ := h
  exact ⟨[r0, r1], .inr rfl, by rw [hqueue, hreceived, List.append_assoc]⟩

/-- Taking a word moves it from the front of the queue to the end of the words taken. -/
theorem takeWord_received_append_rspQueue (s : State) :
    s.takeWord.received ++ s.takeWord.rspQueue = s.received ++ s.rspQueue := by
  rw [takeWord_received, takeWord_rspQueue, List.append_assoc, List.take_append_drop]

theorem acceptWord_appendsResponse {w : Word} {s t : State} (h : acceptWord w s = .next t) :
    AppendsResponse s t := by
  rcases acceptWord_cases w s with ⟨_, hrun⟩ | ⟨_, hbuf⟩
  · obtain ⟨_, _, _, hans⟩ := runCommand_answered (hrun.symm.trans h)
    exact hans.appendsResponse
  · obtain rfl := Host.Outcome.next.inj (h.symm.trans hbuf)
    exact ⟨[], .inl rfl, (List.append_nil _).symm⟩

/-- Only `rst` discards response words. -/
theorem hostMove_appendsResponse {m : HostMove} {s t : State} (hm : m ≠ .rst)
    (h : hostMove m s = .next t) : AppendsResponse s t := by
  cases m with
  | send w => exact acceptWord_appendsResponse h
  | take =>
    obtain rfl := Host.Outcome.next.inj h
    exact ⟨[], .inl rfl, by rw [takeWord_received_append_rspQueue, List.append_nil]⟩
  | rst => exact absurd rfl hm

/-- Settles O55: the step is one move of the host's script, so not `rst`, on a state with the response words of `s`. -/
theorem responsesInCommandOrder : Obligations.ResponsesInCommandOrder := by
  intro s t hrst h
  obtain ⟨m, rest, hmem, _, hmove⟩ := step_next_enabled h
  have happ : AppendsResponse { s with host := rest } t :=
    hostMove_appendsResponse (ne_of_mem_of_not_mem hmem hrst) hmove
  exact happ

end Sys2Proof.Machine

/-! PROOF. The opcode map and the codec (30_encoding.md R61, R67 to R71, R79): a header matches at most one row; the fields
placed in a header read back, and a header is its row's pattern with its fields in place, so the encoder and the decoder are
each other's inverse. -/

namespace Sys2Proof

/-! ### The opcode map (R68) -/

/-- Rows that differ demand different values of a bit that both demand. -/
theorem opcodeMap_disjoint : ∀ r ∈ opcodeMap, ∀ r' ∈ opcodeMap,
    r.pattern &&& r'.mask = r'.pattern &&& r.mask → r = r' := by
  decide

theorem row_unique {h : Word} {r r' : OpcodeRow} (hr : r ∈ opcodeMap) (hr' : r' ∈ opcodeMap)
    (e : h &&& r.mask = r.pattern) (e' : h &&& r'.mask = r'.pattern) : r = r' := by
  refine opcodeMap_disjoint r hr r' hr' ?_
  rw [← e, ← e', BitVec.and_assoc, BitVec.and_assoc, BitVec.and_comm r.mask]

theorem OpcodeRow.selects_iff {r : OpcodeRow} {h : Word} : r.selects h = true ↔ h &&& r.mask = r.pattern :=
  beq_iff_eq

theorem selectRow_eq_some_iff {h : Word} {r : OpcodeRow} :
    selectRow h = some r ↔ r ∈ opcodeMap ∧ h &&& r.mask = r.pattern := by
  constructor
  · exact fun e => (selectRow_some e).imp_right OpcodeRow.selects_iff.mp
  · rintro ⟨hr, e⟩
    have hsome : (selectRow h).isSome = true := List.find?_isSome.mpr ⟨r, hr, OpcodeRow.selects_iff.mpr e⟩
    obtain ⟨r', h'⟩ := Option.isSome_iff_exists.mp hsome
    obtain ⟨hr', hsel⟩ := selectRow_some h'
    rw [h', row_unique hr' hr (OpcodeRow.selects_iff.mp hsel) e]

theorem selectRow_eq_none_iff {h : Word} :
    selectRow h = none ↔ ∀ r ∈ opcodeMap, h &&& r.mask ≠ r.pattern := by
  simp [Option.eq_none_iff_forall_ne_some, selectRow_eq_some_iff]

/-- Settles O3: no two rows have a match in common, so the row found is the row matched. -/
theorem headerSelectsAtMostOneRow : Obligations.HeaderSelectsAtMostOneRow :=
  ⟨fun _ _ _ => row_unique, fun _ _ => selectRow_eq_some_iff⟩

theorem decode_cons_of_row {h : Word} {r : OpcodeRow} (hr : r ∈ opcodeMap)
    (e : h &&& r.mask = r.pattern) (ops : List Word) :
    decode (h :: ops) = assembleOperands r.mnemonic h ops := by
  simp only [decode, selectRow_eq_some_iff.mpr ⟨hr, e⟩]

/-! ### A field of a header (R61): a value at its bit position -/

/-- A field reads back the value placed in it. -/
@[simp] theorem extractLsb'_setWidth_shiftLeft {n lo : Nat} (v : BitVec n) (h : lo + n ≤ 64) :
    (v.setWidth 64 <<< lo : Word).extractLsb' lo n = v := by
  refine BitVec.eq_of_getLsbD_eq fun k hk => ?_
  have hlo : lo + k < 64 := by omega
  simp [hk, hlo]

/-- A field does not see a value placed in another one. -/
@[simp] theorem extractLsb'_setWidth_shiftLeft_of_disjoint {n lo m lo' : Nat} (v : BitVec n)
    (h : lo' + m ≤ lo ∨ lo + n ≤ lo') :
    (v.setWidth 64 <<< lo : Word).extractLsb' lo' m = 0#m := by
  refine BitVec.eq_of_getLsbD_eq fun k hk => ?_
  rcases h with h | h
  · have hlo : lo' + k < lo := by omega
    simp [hlo]
  · have hv : v.getLsbD (lo' + k - lo) = false := BitVec.getLsbD_of_ge _ _ (by omega)
    simp [hv]

/-- Placing a field of `h` where it stands in `h` masks `h` to that field. -/
theorem extractLsb'_shiftLeft_eq_and (h : Word) (lo n : Nat) :
    ((h.extractLsb' lo n).setWidth 64 <<< lo : Word) = h &&& ((BitVec.allOnes n).setWidth 64 <<< lo) := by
  refine BitVec.eq_of_getLsbD_eq fun k hk => ?_
  by_cases hlo : k < lo
  · simp [hlo]
  · have hk' : lo + (k - lo) = k := by omega
    simp [hk', hk, Bool.and_comm, Bool.and_assoc]

/-- A mask without a bit of a field clears the field. -/
@[simp] theorem setWidth_shiftLeft_and_eq_zero {n lo : Nat} (v : BitVec n) (hfit : lo + n ≤ 64) {m : Word}
    (hm : (BitVec.allOnes n).setWidth 64 <<< lo &&& m = 0#64) :
    (v.setWidth 64 <<< lo : Word) &&& m = 0#64 := by
  have hv := extractLsb'_shiftLeft_eq_and (v.setWidth 64 <<< lo) lo n
  rw [extractLsb'_setWidth_shiftLeft v hfit] at hv
  rw [hv, BitVec.and_assoc, hm, BitVec.and_zero]

/-- A single bit is a field of one bit. -/
theorem bitWord_eq_setWidth (b : Bool) : bitWord b = (BitVec.ofBool b).setWidth 64 := by
  cases b <;> rfl

theorem bitWord_getElem (b : Bool) (k : Nat) (hk : k < 64) : (bitWord b)[k] = (b && decide (k = 0)) := by
  rw [← BitVec.getLsbD_eq_getElem hk, bitWord_getLsbD]

/-- A bit of a header is a field of one bit. -/
theorem ofBool_getLsbD_eq_extractLsb' (h : Word) (k : Nat) :
    BitVec.ofBool (h.getLsbD k) = h.extractLsb' k 1 := by
  refine BitVec.eq_of_getLsbD_eq fun j hj => ?_
  obtain rfl : j = 0 := by omega
  simp

theorem bitWord_getLsbD_shiftLeft_eq_and (h : Word) (k : Nat) :
    bitWord (h.getLsbD k) <<< k = h &&& ((BitVec.allOnes 1).setWidth 64 <<< k) := by
  rw [bitWord_eq_setWidth, ofBool_getLsbD_eq_extractLsb', extractLsb'_shiftLeft_eq_and]

/-! ### Decoding an encoded command (R79, R67) -/

theorem decode_encode_configure (w : BitVec 7) (ri ro : Bool) (p ini x : Word) :
    decode (encode (.configure w ri ro p ini x)) = .ok (.configure w ri ro p ini x) := by
  have hrow : encodeHeader (.configure w ri ro p ini x) &&& 0xFFFFFFFFE00FFFFF#64 = 0x1#64 := by
    simp [encodeHeader, bitWord_eq_setWidth, BitVec.and_or_distrib_right]
  have hw : fieldWidth (encodeHeader (.configure w ri ro p ini x)) = w := by
    simp [fieldWidth, encodeHeader, bitWord_eq_setWidth, BitVec.extractLsb'_or]
  have hri : fieldRefin (encodeHeader (.configure w ri ro p ini x)) = ri := by
    simp [fieldRefin, encodeHeader, bitWord_getElem]
  have hro : fieldRefout (encodeHeader (.configure w ri ro p ini x)) = ro := by
    simp [fieldRefout, encodeHeader, bitWord_getElem]
  rw [encode_eq, decode_cons_of_row (r := ⟨.configure, 0x1#64, 0xFFFFFFFFE00FFFFF#64⟩) (by decide) hrow]
  simp only [assembleOperands, encodeOperands, hw, hri, hro]

theorem decode_encode_processBits (v : Byte) (n : BitVec 4) :
    decode (encode (.processBits v n)) = .ok (.processBits v n) := by
  have hrow : encodeHeader (.processBits v n) &&& 0xFFFFFFFFFFF000FF#64 = 0x4#64 := by
    simp [encodeHeader, BitVec.and_or_distrib_right]
  have hv : fieldData (encodeHeader (.processBits v n)) = v := by
    simp [fieldData, encodeHeader, BitVec.extractLsb'_or]
  have hn : fieldNbits (encodeHeader (.processBits v n)) = n := by
    simp [fieldNbits, encodeHeader, BitVec.extractLsb'_or]
  rw [encode_eq, decode_cons_of_row (r := ⟨.processBits, 0x4#64, 0xFFFFFFFFFFF000FF#64⟩) (by decide) hrow]
  simp only [assembleOperands, encodeOperands, noOperand, hv, hn]

theorem decode_encode_processByte (byte : Byte) :
    decode (encode (.processByte byte)) = .ok (.processByte byte) := by
  have hrow : encodeHeader (.processByte byte) &&& 0xFFFFFFFFFFFF00FF#64 = 0x5#64 := by
    simp [encodeHeader, BitVec.and_or_distrib_right]
  have hv : fieldData (encodeHeader (.processByte byte)) = byte := by
    simp [fieldData, encodeHeader, BitVec.extractLsb'_or]
  rw [encode_eq, decode_cons_of_row (r := ⟨.processByte, 0x5#64, 0xFFFFFFFFFFFF00FF#64⟩) (by decide) hrow]
  simp only [assembleOperands, encodeOperands, noOperand, hv]

/-- Settles O1: a header matches its row and its fields read back, so the row's operands are assembled again; the headers
without a field wider than a bit are fixed words. -/
theorem decodeOfEncode : Obligations.DecodeOfEncode := by
  intro i
  cases i with
  | configure w ri ro p ini x => exact decode_encode_configure w ri ro p ini x
  | processBits v n => exact decode_encode_processBits v n
  | processByte byte => exact decode_encode_processByte byte
  | processBit b => cases b <;> rfl
  | resetInit r =>
    have hrow : 0x20000002#64 &&& 0xFFFFFFFFFFFFFFFF#64 = 0x20000002#64 := by decide
    exact decode_cons_of_row (r := ⟨.resetInit, 0x20000002#64, 0xFFFFFFFFFFFFFFFF#64⟩) (by decide) hrow [r]
  | reset | checksum | getTruncatedPolynomial | getInitialRemainder | getFinalXorValue | getReflectInput
  | getReflectRemainder | getInterimRemainder | getBitCount => rfl

/-! ### Encoding a decoded command (R69, R71) -/

theorem eq_of_and_allOnes {h p : Word} (e : h &&& 0xFFFFFFFFFFFFFFFF#64 = p) : h = p :=
  BitVec.and_allOnes.symm.trans e

/-- A header is its row's pattern with the bits the row's mask leaves out. -/
theorem pattern_or_and_eq {h m f p : Word} (e : h &&& m = p) (hf : m ||| f = BitVec.allOnes 64) :
    p ||| h &&& f = h := by
  rw [← e, ← BitVec.and_or_distrib_left, hf, BitVec.and_allOnes]

theorem encodeHeader_configure_of_row {h : Word} (e : h &&& 0xFFFFFFFFE00FFFFF#64 = 0x1#64) (p ini x : Word) :
    encodeHeader (.configure (fieldWidth h) (fieldRefin h) (fieldRefout h) p ini x) = h := by
  simp only [encodeHeader, fieldWidth, fieldRefin, fieldRefout, extractLsb'_shiftLeft_eq_and,
    bitWord_getLsbD_shiftLeft_eq_and, BitVec.or_assoc, ← BitVec.and_or_distrib_left]
  exact pattern_or_and_eq e (by decide)

theorem encodeHeader_processBit_of_row {h : Word} (e : h &&& 0xFFFFFFFFFFFFFEFF#64 = 0x3#64) :
    encodeHeader (.processBit (fieldBit h)) = h := by
  simp only [encodeHeader, fieldBit, bitWord_getLsbD_shiftLeft_eq_and]
  exact pattern_or_and_eq e (by decide)

theorem encodeHeader_processBits_of_row {h : Word} (e : h &&& 0xFFFFFFFFFFF000FF#64 = 0x4#64) :
    encodeHeader (.processBits (fieldData h) (fieldNbits h)) = h := by
  simp only [encodeHeader, fieldData, fieldNbits, extractLsb'_shiftLeft_eq_and, BitVec.or_assoc,
    ← BitVec.and_or_distrib_left]
  exact pattern_or_and_eq e (by decide)

theorem encodeHeader_processByte_of_row {h : Word} (e : h &&& 0xFFFFFFFFFFFF00FF#64 = 0x5#64) :
    encodeHeader (.processByte (fieldData h)) = h := by
  simp only [encodeHeader, fieldData, extractLsb'_shiftLeft_eq_and]
  exact pattern_or_and_eq e (by decide)

/-- A row without operand words assembles its command from no operand word (R63, R64). -/
theorem encode_of_noOperand {i j : Instr} {h : Word} {ops : List Word} (ha : noOperand j ops = .ok i)
    (hh : encodeHeader j = h) (ho : encodeOperands j = []) : encode i = h :: ops := by
  cases ops with
  | nil =>
    obtain rfl : j = i := Except.ok.inj ha
    rw [encode_eq, hh, ho]
  | cons _ _ => cases ha

/-- Row by row: what a row assembles from a header that matches it has that header and those operand words. -/
theorem encode_of_assembleOperands {r : OpcodeRow} (hr : r ∈ opcodeMap) {h : Word} {ops : List Word}
    {i : Instr} (e : h &&& r.mask = r.pattern) (ha : assembleOperands r.mnemonic h ops = .ok i) :
    encode i = h :: ops := by
  simp only [opcodeMap, List.mem_cons, List.not_mem_nil, or_false] at hr
  rcases hr with rfl | rfl | rfl | rfl | rfl | rfl | rfl | rfl | rfl | rfl | rfl | rfl | rfl | rfl
  · -- CONFIGURE
    dsimp only [assembleOperands] at ha
    split at ha
    · obtain rfl := Except.ok.inj ha
      exact congrArg (· :: _) (encodeHeader_configure_of_row e _ _ _)
    · cases ha
  · -- RESET
    exact encode_of_noOperand ha (eq_of_and_allOnes e).symm rfl
  · -- RESET_INIT
    dsimp only [assembleOperands] at ha
    split at ha
    · obtain rfl := Except.ok.inj ha
      exact congrArg (· :: _) (eq_of_and_allOnes e).symm
    · cases ha
  · -- PROCESS_BIT
    exact encode_of_noOperand ha (encodeHeader_processBit_of_row e) rfl
  · -- PROCESS_BITS
    exact encode_of_noOperand ha (encodeHeader_processBits_of_row e) rfl
  · -- PROCESS_BYTE
    exact encode_of_noOperand ha (encodeHeader_processByte_of_row e) rfl
  -- CHECKSUM and the seven GET rows have no field
  all_goals exact encode_of_noOperand ha (eq_of_and_allOnes e).symm rfl

/-- Settles O2: the header matches the row it selects, and that row gives back its words. -/
theorem encodeOfDecode : Obligations.EncodeOfDecode := by
  intro ws i hi
  cases ws with
  | nil => cases hi
  | cons h ops =>
    cases hsel : selectRow h with
    | none => simp [decode_of_selectRow_none hsel] at hi
    | some r =>
      obtain ⟨hr, e⟩ := selectRow_eq_some_iff.mp hsel
      exact encode_of_assembleOperands hr e ((decode_cons_of_row hr e ops).symm.trans hi)

end Sys2Proof

/-! PROOF. A command as the channel runs it (30_encoding.md R63, R69 to R72, R75): the step that takes a command's last word
runs what the words decode to; a header outside the opcode map is answered with ILLEGAL_COMMAND; every command answers once. -/

namespace Sys2Proof

/-- The header of a command asks for exactly its operand words and carries its opcode (R63, R68). -/
theorem operandCount_and_fieldOp_encodeHeader (i : Instr) : Laws.HeaderSelectsItsRow.Statement i := by
  cases i with
  | configure w ri ro p ini x => exact Laws.HeaderSelectsItsRow.configure w ri ro p ini x
  | reset => exact Laws.HeaderSelectsItsRow.reset
  | resetInit r => exact Laws.HeaderSelectsItsRow.resetInit r
  | processBit b => exact Laws.HeaderSelectsItsRow.processBit b
  | processBits v n => exact Laws.HeaderSelectsItsRow.processBits v n
  | processByte byte => exact Laws.HeaderSelectsItsRow.processByte byte
  | checksum => exact Laws.HeaderSelectsItsRow.checksum
  | getTruncatedPolynomial => exact Laws.HeaderSelectsItsRow.getTruncatedPolynomial
  | getInitialRemainder => exact Laws.HeaderSelectsItsRow.getInitialRemainder
  | getFinalXorValue => exact Laws.HeaderSelectsItsRow.getFinalXorValue
  | getReflectInput => exact Laws.HeaderSelectsItsRow.getReflectInput
  | getReflectRemainder => exact Laws.HeaderSelectsItsRow.getReflectRemainder
  | getInterimRemainder => exact Laws.HeaderSelectsItsRow.getInterimRemainder
  | getBitCount => exact Laws.HeaderSelectsItsRow.getBitCount

theorem isComplete_of_decode {ws : List Word} {i : Instr} (h : decode ws = .ok i) : isComplete ws = true := by
  rw [← encodeOfDecode ws i h, encode_eq, isComplete_cons, (operandCount_and_fieldOp_encodeHeader i).1]
  exact decide_eq_true le_rfl

theorem fieldOp_of_decode {h : Word} {ops : List Word} {i : Instr} (hi : decode (h :: ops) = .ok i) :
    fieldOp h = i.op := by
  obtain ⟨rfl, _⟩ := List.cons.inj (encodeOfDecode _ i hi)
  exact (operandCount_and_fieldOp_encodeHeader i).2

/-- A header has its row's value in every field the row's mask covers. -/
theorem extractLsb'_of_row {h m p : Word} {lo n : Nat} (e : h &&& m = p)
    (hm : m.extractLsb' lo n = BitVec.allOnes n) : h.extractLsb' lo n = p.extractLsb' lo n := by
  rw [← e, BitVec.extractLsb'_and, hm, BitVec.and_allOnes]

theorem opcodeMap_mask_op : ∀ r ∈ opcodeMap, r.mask.extractLsb' 0 4 = BitVec.allOnes 4 := by decide

theorem opcodeMap_op_defined : ∀ r ∈ opcodeMap, reservedOp (r.pattern.extractLsb' 0 4) = false := by decide

theorem opcodeMap_bit29 : ∀ r ∈ opcodeMap, r.mask.extractLsb' 29 1 = BitVec.allOnes 1 ∧
    (r.pattern.extractLsb' 29 1 = 1#1 → r.pattern.extractLsb' 0 4 = 2#4) := by decide

theorem opcodeMap_processBit : ∀ r ∈ opcodeMap, r.pattern.extractLsb' 0 4 = 3#4 →
    r.mask.extractLsb' 9 7 = BitVec.allOnes 7 ∧ r.pattern.extractLsb' 9 7 = 0#7 := by decide

theorem opcodeMap_reservedBits : ∀ r ∈ opcodeMap,
    (r.mask.extractLsb' 4 4 = BitVec.allOnes 4 ∧ r.pattern.extractLsb' 4 4 = 0#4) ∧
    (r.mask.extractLsb' 30 34 = BitVec.allOnes 34 ∧ r.pattern.extractLsb' 30 34 = 0#34) := by decide

/-- A header with a reserved opcode matches no row (R70). -/
theorem ne_pattern_of_reservedOp {h : Word} (hop : reservedOp (h.extractLsb' 0 4) = true) :
    ∀ r ∈ opcodeMap, h &&& r.mask ≠ r.pattern := by
  intro r hr e
  rw [extractLsb'_of_row e (opcodeMap_mask_op r hr), opcodeMap_op_defined r hr] at hop
  cases hop

/-- A header with a nonzero bit outside every field its opcode has matches no row (R71). -/
theorem ne_pattern_of_reservedBits {h : Word}
    (hbits : (h.getLsbD 29 = true ∧ h.extractLsb' 0 4 ≠ 2#4) ∨
      (h.extractLsb' 0 4 = 3#4 ∧ h.extractLsb' 9 7 ≠ 0#7) ∨
      h.extractLsb' 4 4 ≠ 0#4 ∨ h.extractLsb' 30 34 ≠ 0#34) :
    ∀ r ∈ opcodeMap, h &&& r.mask ≠ r.pattern := by
  intro r hr e
  have hop := extractLsb'_of_row e (opcodeMap_mask_op r hr)
  obtain ⟨⟨h74mask, h74⟩, ⟨h6330mask, h6330⟩⟩ := opcodeMap_reservedBits r hr
  rcases hbits with ⟨h29, hne⟩ | ⟨h3, hne⟩ | hne | hne
  · obtain ⟨hmask, hpat⟩ := opcodeMap_bit29 r hr
    have h1 : h.extractLsb' 29 1 = 1#1 := by
      rw [← ofBool_getLsbD_eq_extractLsb', h29]
      rfl
    exact hne (hop.trans (hpat ((extractLsb'_of_row e hmask).symm.trans h1)))
  · obtain ⟨hmask, hpat⟩ := opcodeMap_processBit r hr (hop.symm.trans h3)
    exact hne ((extractLsb'_of_row e hmask).trans hpat)
  · exact hne ((extractLsb'_of_row e h74mask).trans h74)
  · exact hne ((extractLsb'_of_row e h6330mask).trans h6330)

/-- Settles O4: each list is the encoding of its command. -/
theorem specExampleWordsDecode : Obligations.SpecExampleWordsDecode :=
  ⟨decodeOfEncode (.configure 32#7 true true 0x04C11DB7#64 0xFFFFFFFF#64 0xFFFFFFFF#64),
    decodeOfEncode (.resetInit 0x1FFFF#64), decodeOfEncode (.processBit true),
    decodeOfEncode (.processBits 0x05#8 3#4), decodeOfEncode (.processByte 0x31#8),
    decodeOfEncode .getBitCount⟩

end Sys2Proof

namespace Sys2Proof.Machine

/-! ### The words of a command -/

theorem runCommand_of_decode {ws : List Word} {i : Instr} (h : decode ws = .ok i) (s : State) :
    runCommand ws s = exec i s := by
  simp only [runCommand, h]

theorem runCommand_encode (i : Instr) (s : State) : runCommand (encode i) s = exec i s :=
  runCommand_of_decode (decodeOfEncode i) s

/-- The response of an illegal command is written out of its header (R70, R75). -/
theorem rsp0_illegalCommand (h : Word) :
    rsp0 (fieldOp h) .illegalCommand = 0x3#64 ||| ((h &&& 0xF#64) <<< 8) := by
  have hop : h &&& 0xF#64 = (fieldOp h).setWidth 64 <<< 0 := (extractLsb'_shiftLeft_eq_and h 0 4).symm
  rw [hop]
  generalize fieldOp h = op
  revert op
  decide

/-- A header that matches no row writes nothing and is answered with ILLEGAL_COMMAND (R70, R71). -/
theorem runCommand_illegal {h : Word} (hrow : ∀ r ∈ opcodeMap, h &&& r.mask ≠ r.pattern) (ops : List Word)
    (s : State) : runCommand (h :: ops) s = .next (s.respond (fieldOp h) .illegalCommand 0#64) := by
  have herr := decode_of_selectRow_none (ops := ops) (selectRow_eq_none_iff.mpr hrow)
  simp only [runCommand, herr, List.headD_cons, raise_eq_respond]

/-! ### The step that takes a command word while the response queue has room (R63) -/

section
variable {s : State} {w : Word} {rest : List HostMove}
  (helab : elaborated s.mode s.rspDepth = true) (hroom : s.room = true) (hhost : s.host = .send w :: rest)
include helab hroom hhost

theorem step_send : step s = acceptWord w { s with host := rest } :=
  step_of_enabled helab hhost (by simp [enabled, hroom])

theorem step_send_incomplete (hc : isComplete (s.cmdBuf ++ [w]) = false) :
    step s = .next { s with cmdBuf := s.cmdBuf ++ [w], host := rest } := by
  rw [step_send helab hroom hhost]
  simp [acceptWord, hc]

theorem step_send_complete (hc : isComplete (s.cmdBuf ++ [w]) = true) :
    step s = runCommand (s.cmdBuf ++ [w]) { s with cmdBuf := [], host := rest } := by
  rw [step_send helab hroom hhost]
  simp [acceptWord, hc]

theorem step_send_decode {i : Instr} (hi : decode (s.cmdBuf ++ [w]) = .ok i) :
    step s = exec i { s with cmdBuf := [], host := rest } := by
  rw [step_send_complete helab hroom hhost (isComplete_of_decode hi), runCommand_of_decode hi]

theorem step_send_illegal {h : Word} {ops : List Word} (hws : s.cmdBuf ++ [w] = h :: ops)
    (hlen : ops.length = operandCount h) (hrow : ∀ r ∈ opcodeMap, h &&& r.mask ≠ r.pattern) :
    ∃ t, step s = .next t ∧ t.block = s.block ∧
      Answered { s with host := rest, cmdBuf := [] } t (0x3#64 ||| ((h &&& 0xF#64) <<< 8)) 0#64 := by
  have hc : isComplete (s.cmdBuf ++ [w]) = true := by
    rw [hws, isComplete_cons, hlen, decide_eq_true le_rfl]
  rw [step_send_complete helab hroom hhost hc, hws, runCommand_illegal hrow, ← rsp0_illegalCommand]
  exact ⟨_, rfl, rfl, answered_respond ..⟩

end

/-- Settles O10: words that decode are complete. -/
theorem stepRunsDecodedCommand : Obligations.StepRunsDecodedCommand :=
  fun _ _ _ _ helab hroom hhost hi => step_send_decode helab hroom hhost hi

/-- Settles O5: the words are complete exactly when `ops` holds as many as the header asks for. -/
theorem lengthFromHeaderAlone : Obligations.LengthFromHeaderAlone := by
  refine ⟨fun _ => rfl, fun s h w ops rest helab hroom hws hhost => ⟨fun hlt => ?_, fun hlen => ?_⟩⟩
  · have hc : isComplete (s.cmdBuf ++ [w]) = false := by
      rw [hws, isComplete_cons, decide_eq_false (by omega)]
    rw [step_send_incomplete helab hroom hhost hc, hws]
  · have hc : isComplete (s.cmdBuf ++ [w]) = true := by
      rw [hws, isComplete_cons, decide_eq_true (by omega)]
    rw [step_send_complete helab hroom hhost hc]
    obtain ⟨t, ht⟩ := runCommand_next (s.cmdBuf ++ [w]) { s with cmdBuf := [], host := rest }
    obtain ⟨_, _, _, _, hbuf, hrest, _⟩ := runCommand_answered ht
    exact ⟨t, ht, hbuf, hrest⟩

/-- Settles O7: no row matches, so the command is illegal; a row whose mask covers a field fixes the field's value. -/
theorem reservedBitsAreIllegal : Obligations.ReservedBitsAreIllegal :=
  ⟨fun _ _ _ _ _ helab hroom hws hlen hhost hrow => step_send_illegal helab hroom hhost hws hlen hrow,
    fun _ => ne_pattern_of_reservedBits⟩

/-- Settles O6: a reserved opcode asks for no operand word and matches no row. -/
theorem reservedOpcodesIllegal : Obligations.ReservedOpcodesIllegal := by
  intro s h rest helab hroom hbuf hhost hop
  have hws : s.cmdBuf ++ [h] = [h] := by rw [hbuf, List.nil_append]
  have hlen : ([] : List Word).length = operandCount h := by
    rcases hop with hop | hop | hop <;> simp [operandCount, fieldOp, hop]
  have hres : reservedOp (h.extractLsb' 0 4) = true := by
    rcases hop with hop | hop | hop <;> rw [hop] <;> rfl
  obtain ⟨t, ht, hblock, hans⟩ :=
    step_send_illegal helab hroom hhost hws hlen (ne_pattern_of_reservedOp hres)
  rw [← hbuf] at hans
  exact ⟨t, ht, hblock, hans⟩

/-- Settles O8: the words decode to CONFIGURE, which a FIXED block answers with ILLEGAL_COMMAND. -/
theorem configureIllegalInFixed : Obligations.ConfigureIllegalInFixed := by
  intro s q rem h p i x rest hblock helab hroom hrow hbuf hhost
  have hdec : decode (s.cmdBuf ++ [x]) =
      .ok (.configure (fieldWidth h) (fieldRefin h) (fieldRefout h) p i x) := by
    rw [hbuf]
    exact decode_cons_of_row (r := ⟨.configure, 0x1#64, 0xFFFFFFFFE00FFFFF#64⟩) (by decide) hrow [p, i, x]
  have hmode : ({ s with cmdBuf := [], host := rest } : State).mode = .fixed q := by
    simp [State.mode, hblock]
  rw [step_send_decode helab hroom hhost hdec]
  rcases exec_configure_cases (fieldWidth h) (fieldRefin h) (fieldRefout h) p i x
    { s with cmdBuf := [], host := rest } with ⟨_, _, hex⟩ | ⟨hm, _⟩ | ⟨hm, _⟩
  · exact ⟨_, hex, rfl, answered_respond ..⟩
  · cases hm.symm.trans hmode
  · cases hm.symm.trans hmode

/-! ### One response to every command (R75, R140) -/

/-- The outcome `o` of a command with opcode `op` on `s`: one response, without data unless the command `reads`, and
nothing written and no data with a status other than OK. -/
abbrev AnswersOnce (o : Out) (s : State) (op : BitVec 4) (reads : Bool) : Prop :=
  ∃ t st d, o = .next t ∧ Answered s t (rsp0 op st) d ∧
    (st ≠ .ok → d = 0#64 ∧ t.block = s.block) ∧ (reads = false → d = 0#64)

theorem answersOnce_of_respond {o : Out} {s : State} {op st} (h : o = .next (s.respond op st 0#64))
    (reads : Bool) : AnswersOnce o s op reads :=
  ⟨_, st, _, h, answered_respond .., fun _ => ⟨rfl, rfl⟩, fun _ => rfl⟩

theorem answersOnce_of_setRem {o : Out} {s : State} {v op} (h : o = .next ((s.setRem v).respond op .ok 0#64))
    (reads : Bool) : AnswersOnce o s op reads :=
  ⟨_, .ok, _, h, answered_setRem_respond .., fun hne => absurd rfl hne, fun _ => rfl⟩

theorem answersOnce_updateRem (op f) (s : State) : AnswersOnce (updateRem op f s) s op false := by
  rcases updateRem_cases op f s with ⟨_, h⟩ | ⟨_, _, h⟩
  · exact answersOnce_of_respond h _
  · exact answersOnce_of_setRem h _

theorem answersOnce_readOut (op f) (s : State) : AnswersOnce (readOut op f s) s op true := by
  rcases readOut_cases op f s with ⟨_, h⟩ | ⟨_, _, h⟩
  · exact answersOnce_of_respond h _
  · exact ⟨_, .ok, _, h, answered_respond .., fun hne => absurd rfl hne, nofun⟩

theorem answersOnce_exec (i : Instr) (s : State) : AnswersOnce (exec i s) s i.op (isRead i) := by
  cases i with
  | configure w ri ro p ini x =>
    rcases exec_configure_cases w ri ro p ini x s with ⟨_, _, h⟩ | ⟨_, _, h⟩ | ⟨_, _, h⟩
    · exact answersOnce_of_respond h _
    · exact ⟨_, .ok, _, h, answered_load_respond .., fun hne => absurd rfl hne, fun _ => rfl⟩
    · exact answersOnce_of_respond h _
  | processBits v n =>
    rcases exec_processBits_cases v n s with ⟨_, h⟩ | ⟨_, _, _, h⟩ | ⟨_, _, _, h⟩
    · exact answersOnce_of_respond h _
    · exact answersOnce_of_setRem h _
    · exact answersOnce_of_respond h _
  | reset | resetInit _ | processBit _ | processByte _ => exact answersOnce_updateRem ..
  | checksum | getTruncatedPolynomial | getInitialRemainder | getFinalXorValue | getReflectInput
  | getReflectRemainder | getInterimRemainder | getBitCount => exact answersOnce_readOut ..

theorem statusCode_mem (st : Status) : statusCode st ∈ [0x00#8, 0x01#8, 0x02#8, 0x03#8, 0x04#8] := by
  cases st <;> decide

/-- Settles O9: words that decode run a command with the header's opcode; other words are answered as illegal. -/
theorem everyCommandAnswersOnce : Obligations.EveryCommandAnswersOnce := by
  intro h ops s _
  have hone : ∃ reads, AnswersOnce (runCommand (h :: ops) s) s (fieldOp h) reads ∧
      ∀ i, decode (h :: ops) = .ok i → isRead i = false → reads = false := by
    rcases runCommand_cases (h :: ops) s with ⟨i, hi, hrun⟩ | ⟨e, he, hrun⟩
    · rw [hrun, fieldOp_of_decode hi]
      refine ⟨isRead i, answersOnce_exec i s, fun j hj hread => ?_⟩
      cases hi.symm.trans hj
      exact hread
    · exact ⟨false, answersOnce_of_respond hrun _, fun _ _ _ => rfl⟩
  obtain ⟨reads, ⟨t, st, d, hrun, hans, herr, hdata⟩, hreads⟩ := hone
  refine ⟨t, _, d, hrun, hans, ?code, rsp0_op _ _, rsp0_high _ _, ?error,
    fun i hi hread => hdata (hreads i hi hread)⟩
  case code =>
    rw [rsp0_status]
    exact statusCode_mem st
  case error =>
    rw [rsp0_status]
    exact fun hne => herr (hne <| congrArg statusCode ·)

/-! ### Range errors (R142, R143) -/

theorem rsp0_eq_iff (op : BitVec 4) (st st' : Status) : rsp0 op st = rsp0 op st' ↔ st = st' := by
  refine ⟨fun h => ?_, congrArg (rsp0 op)⟩
  have hcode : statusCode st = statusCode st' := by rw [← rsp0_status op st, h, rsp0_status]
  revert hcode
  cases st <;> cases st' <;> decide

/-- R142: CONFIGURE on a PROGRAMMABLE block reports the range error exactly where R111's formula fails. -/
theorem exec_configure_range {s : State} (hm : s.mode = .programmable) (w ri ro p ini x) :
    ∃ t st, exec (.configure w ri ro p ini x) s = .next t ∧ Answered s t (rsp0 0x1#4 st) 0#64 ∧
      (st = .parameterOutOfRange ↔ valid w p ini x = false) ∧
      (st = .parameterOutOfRange → t.block = s.block) := by
  rcases exec_configure_cases w ri ro p ini x s with ⟨_, hf, _⟩ | ⟨_, hv, h⟩ | ⟨_, hv, h⟩
  · cases hm.symm.trans hf
  · exact ⟨_, .ok, h, answered_load_respond .., by simp [hv], nofun⟩
  · exact ⟨_, _, h, answered_respond .., by simp [hv], fun _ => rfl⟩

/-- R143: PROCESS_BITS on a configured block reports the count error exactly for counts above 8. -/
theorem exec_processBits_range {s : State} (hs : s.cfgValid = true) (v n) :
    ∃ t st, exec (.processBits v n) s = .next t ∧ Answered s t (rsp0 0x4#4 st) 0#64 ∧
      (st = .bitCountOutOfRange ↔ 8 < n.toNat) ∧ (8 < n.toNat → t.block = s.block) := by
  rcases exec_processBits_cases v n s with ⟨hnone, _⟩ | ⟨_, _, hn, h⟩ | ⟨_, _, hn, h⟩
  · simp [State.cfgValid, hnone] at hs
  · exact ⟨_, .ok, h, answered_setRem_respond .., by simpa using hn, fun hgt => absurd hgt hn.not_gt⟩
  · exact ⟨_, _, h, answered_respond .., by simpa using hn, fun _ => rfl⟩

/-- RESET_INIT, which masks its operand, has no range error. -/
theorem exec_resetInit_range (r : Word) (s : State) :
    ∃ t st, exec (.resetInit r) s = .next t ∧ Answered s t (rsp0 0x2#4 st) 0#64 ∧
      st ≠ .parameterOutOfRange := by
  rcases updateRem_cases 0x2#4 (fun e => r &&& mask e.params.width.toNat) s with ⟨_, h⟩ | ⟨_, _, h⟩
  · exact ⟨_, _, h, answered_respond .., by decide⟩
  · exact ⟨_, _, h, answered_setRem_respond .., by decide⟩

/-- Settles O42: a command's words decode to it, and its range error is the response exactly for the causes named. -/
theorem rangeErrorsAreReported : Obligations.RangeErrorsAreReported := by
  refine ⟨fun w ri ro p i x s hm => ⟨decodeOfEncode _, ?_⟩, fun r s => ?_,
    fun v n s hs => ⟨decodeOfEncode _, ?_⟩⟩
  · obtain ⟨t, st, h, hans, hiff, hblock⟩ := exec_configure_range hm w ri ro p i x
    have hst : rsp0 0x1#4 st = 0x101#64 ↔ st = .parameterOutOfRange :=
      rsp0_eq_iff 0x1#4 st .parameterOutOfRange
    have hvalid := valid_iff w p i x
    refine ⟨t, _, (runCommand_encode _ s).trans h, hans, ?_, hblock ∘ hst.mp⟩
    rw [hst, hiff, ← Bool.not_eq_true, hvalid]
    omega
  · obtain ⟨t, st, h, hans, hne⟩ := exec_resetInit_range r s
    exact ⟨t, _, h, hans, hne ∘ (rsp0_eq_iff 0x2#4 st .parameterOutOfRange).mp⟩
  · obtain ⟨t, st, h, hans, hiff, hblock⟩ := exec_processBits_range hs v n
    have hst : rsp0 0x4#4 st = 0x402#64 ↔ st = .bitCountOutOfRange :=
      rsp0_eq_iff 0x4#4 st .bitCountOutOfRange
    exact ⟨t, _, (runCommand_encode _ s).trans h, hans, hst.trans hiff, hblock⟩

end Sys2Proof.Machine

/-! PROOF. The assembler on a line with operands (30_encoding.md R78, R79): the words of the row over `Nat`, or a refusal. -/

namespace Sys2Proof

/-- A field placed above every bit of a header adds its value there. -/
theorem ofNat_or_field {a v n lo : Nat} (ha : a < 2 ^ lo) (hv : v < 2 ^ n) :
    BitVec.ofNat 64 a ||| (BitVec.ofNat n v).setWidth 64 <<< lo = BitVec.ofNat 64 (a + v * 2 ^ lo) := by
  have hshift : (BitVec.ofNat n v).setWidth 64 <<< lo = BitVec.ofNat 64 (v * 2 ^ lo) := by
    apply BitVec.eq_of_toNat_eq
    simp [Nat.shiftLeft_eq, Nat.mod_eq_of_lt hv]
  rw [hshift, ← BitVec.ofNat_or, Nat.or_comm, Nat.mul_comm, ← Nat.two_pow_add_eq_or_of_lt ha, Nat.add_comm]

/-- A boolean operand that fits is a field of one bit. -/
theorem bitWord_beq_one {b : Nat} (hb : b ≤ 1) : bitWord (b == 1) = (BitVec.ofNat 1 b).setWidth 64 := by
  obtain rfl | rfl : b = 0 ∨ b = 1 := by omega
  · rfl
  · rfl

end Sys2Proof

namespace Sys2Proof.Machine

/-- A line is assembled to its one command's words where its operands fit, and refused elsewhere (R78). -/
theorem map_assemble_eq_ite {mem : Nat → Byte} {l : AsmLine} {fits : Prop} [Decidable fits] {i : Instr}
    {ws : List Word} (hwf : l.wellFormed = true ↔ fits)
    (hone : l.wellFormed = true → assemble mem l = some [i]) (henc : fits → encode i = ws) :
    (assemble mem l).map programWords = if fits then some [ws] else none := by
  by_cases hfits : fits
  · rw [hone (hwf.mpr hfits), if_pos hfits, ← henc hfits]
    rfl
  · simp [assemble, hwf, hfits]

theorem assemble_configure (mem : Nat → Byte) (w p i x ri ro : Nat) :
    (assemble mem (.configure w p i x ri ro)).map programWords =
      if w ≤ 127 ∧ p < 2 ^ 64 ∧ i < 2 ^ 64 ∧ x < 2 ^ 64 ∧ ri ≤ 1 ∧ ro ≤ 1 then
        some [[BitVec.ofNat 64 (1 + w * 2 ^ 20 + ri * 2 ^ 27 + ro * 2 ^ 28), BitVec.ofNat 64 p,
          BitVec.ofNat 64 i, BitVec.ofNat 64 x]]
      else none := by
  refine map_assemble_eq_ite (by simp [AsmLine.wellFormed, and_assoc]) (fun hwf => if_pos hwf) ?_
  rintro ⟨hw, -, -, -, hri, hro⟩
  rw [encode_eq, encodeHeader, bitWord_beq_one hri, bitWord_beq_one hro,
    ofNat_or_field (by omega) (by omega), ofNat_or_field (by omega) (by omega),
    ofNat_or_field (by omega) (by omega), encodeOperands]

theorem assemble_processBits (mem : Nat → Byte) (v n : Nat) :
    (assemble mem (.processBits v n)).map programWords =
      if v ≤ 255 ∧ n ≤ 15 then some [[BitVec.ofNat 64 (4 + v * 2 ^ 8 + n * 2 ^ 16)]] else none := by
  refine map_assemble_eq_ite (by simp [AsmLine.wellFormed]) (fun hwf => if_pos hwf) ?_
  rintro ⟨hv, hn⟩
  rw [encode_eq, encodeHeader, ofNat_or_field (by omega) (by omega),
    ofNat_or_field (by omega) (by omega), encodeOperands]

theorem assemble_processBit (mem : Nat → Byte) (b : Nat) :
    (assemble mem (.processBit b)).map programWords =
      if b ≤ 1 then some [[BitVec.ofNat 64 (3 + b * 2 ^ 8)]] else none := by
  refine map_assemble_eq_ite (by simp [AsmLine.wellFormed]) (fun hwf => if_pos hwf) fun hb => ?_
  rw [encode_eq, encodeHeader, bitWord_beq_one hb, ofNat_or_field (by omega) (by omega),
    encodeOperands]

theorem assemble_processByte (mem : Nat → Byte) (b : Nat) :
    (assemble mem (.processByte b)).map programWords =
      if b ≤ 255 then some [[BitVec.ofNat 64 (5 + b * 2 ^ 8)]] else none := by
  refine map_assemble_eq_ite (by simp [AsmLine.wellFormed]) (fun hwf => if_pos hwf) fun hb => ?_
  rw [encode_eq, encodeHeader, ofNat_or_field (by omega) (by omega), encodeOperands]

theorem assemble_resetInit (mem : Nat → Byte) (r : Nat) :
    (assemble mem (.resetInit r)).map programWords =
      if r < 2 ^ 64 then some [[0x20000002#64, BitVec.ofNat 64 r]] else none :=
  map_assemble_eq_ite (by simp [AsmLine.wellFormed]) (fun hwf => if_pos hwf) fun _ => rfl

/-- Settles O60: line by line. -/
theorem assemblerEncodesOrRefuses : Obligations.AssemblerEncodesOrRefuses := fun mem =>
  ⟨assemble_configure mem, assemble_processBits mem, assemble_processBit mem, assemble_processByte mem,
    assemble_resetInit mem⟩

end Sys2Proof.Machine

/-! PROOF. Masks and reflections, bit by bit (40_datapath.md R90 to R93). -/

namespace Sys2Proof.Machine

/-! ### `mask` (R90) -/

section
variable {W : Nat} (hW : W ≤ 64)
include hW

theorem mask_getLsbD_of_le (k : Nat) : (mask W).getLsbD k = decide (k < W) := by
  rw [mask_getLsbD]
  exact decide_eq_decide.mpr (by omega)

theorem and_mask_eq_self {v : Word} (hv : v ≤ mask W) : v &&& mask W = v := by
  rw [le_mask_iff hW] at hv
  refine BitVec.eq_of_toNat_eq ?_
  rw [BitVec.toNat_and, mask_toNat hW, Nat.and_two_pow_sub_one_eq_mod, Nat.mod_eq_of_lt hv]

/-- A word fits under the mask exactly when its bits from `W` upward are zero. -/
theorem le_mask_iff_getLsbD (v : Word) : v ≤ mask W ↔ ∀ k, W ≤ k → v.getLsbD k = false := by
  refine ⟨fun hv k hk => ?_, fun h => (le_mask_iff hW v).mpr (Nat.lt_pow_two_of_testBit _ fun k hk => ?_)⟩
  · rw [← and_mask_eq_self hW hv, BitVec.getLsbD_and, mask_getLsbD_of_le hW, decide_eq_false (by omega),
      Bool.and_false]
  · rw [BitVec.testBit_toNat, h k hk]

/-- The bits a shift brings in under the mask. -/
theorem shiftLeft_and_mask_getLsbD (v : Word) (n k : Nat) :
    ((v <<< n) &&& mask W).getLsbD k = (decide (n ≤ k ∧ k < W) && v.getLsbD (k - n)) := by
  rw [BitVec.getLsbD_and, mask_getLsbD_of_le hW, BitVec.getLsbD_shiftLeft]
  grind

end

theorem and_mask_xor (a b : Word) (W : Nat) : (a ^^^ b) &&& mask W = (a &&& mask W) ^^^ (b &&& mask W) := by
  refine BitVec.eq_of_getLsbD_eq fun k _ => ?_
  simp only [BitVec.getLsbD_and, BitVec.getLsbD_xor, Bool.and_xor_distrib_right]

/-! ### `reflect` (R91 to R93) -/

/-- After `i` rounds the top `i` of the `n` result bits are in place. -/
theorem reflectLoop_getLsbD (v : Word) {n i : Nat} (hn : n ≤ 64) (hi : i ≤ n) (j : Nat) :
    (reflectLoop v n i).getLsbD j = (decide (n - i ≤ j ∧ j < n) && v.getLsbD (n - 1 - j)) := by
  induction i with
  | zero => simp
  | succ i ih =>
    rw [reflectLoop_succ, BitVec.getLsbD_or, ih (by omega), BitVec.getLsbD_shiftLeft, bitWord_getLsbD]
    by_cases h : j = n - 1 - i
    · obtain rfl : i = n - 1 - j := by omega
      grind
    · grind

theorem reflect_getLsbD {n : Nat} (hn : n ≤ 64) (v : Word) (j : Nat) :
    (reflect v n).getLsbD j = (decide (j < n) && v.getLsbD (n - 1 - j)) := by
  rw [reflect, reflectLoop_getLsbD v hn le_rfl]
  simp

theorem reflect_le_mask {n : Nat} (hn : n ≤ 64) (v : Word) : reflect v n ≤ mask n := by
  refine (le_mask_iff_getLsbD hn _).mpr fun j hj => ?_
  rw [reflect_getLsbD hn, decide_eq_false (by omega), Bool.false_and]

theorem reflect_reflect {n : Nat} (hn : n ≤ 64) (v : Word) : reflect (reflect v n) n = v &&& mask n := by
  refine BitVec.eq_of_getLsbD_eq fun j _ => ?_
  rw [reflect_getLsbD hn, reflect_getLsbD hn, BitVec.getLsbD_and, mask_getLsbD_of_le hn]
  by_cases hj : j < n
  · rw [show n - 1 - (n - 1 - j) = j by omega]
    simp [hj, show n - 1 - j < n by omega]
  · simp [hj]

theorem reflect_xor {n : Nat} (hn : n ≤ 64) (v w : Word) :
    reflect (v ^^^ w) n = reflect v n ^^^ reflect w n := by
  refine BitVec.eq_of_getLsbD_eq fun j _ => ?_
  simp only [reflect_getLsbD hn, BitVec.getLsbD_xor, Bool.and_xor_distrib_left]

/-- Reflection turns a left shift of the register into a right shift. -/
theorem reflect_shiftLeft_and_mask {W : Nat} (hW : W ≤ 64) (v : Word) (n : Nat) :
    reflect ((v <<< n) &&& mask W) W = reflect v W >>> n := by
  refine BitVec.eq_of_getLsbD_eq fun j _ => ?_
  rw [reflect_getLsbD hW, shiftLeft_and_mask_getLsbD hW, BitVec.getLsbD_ushiftRight, reflect_getLsbD hW,
    show W - 1 - j - n = W - 1 - (n + j) by omega]
  grind

theorem reflectByte_getLsbD (b : Byte) {j : Nat} (hj : j < 8) :
    (reflectByte b).getLsbD j = b.getLsbD (7 - j) := by
  rw [reflectByte, BitVec.getLsbD_setWidth, reflect_getLsbD (by omega), BitVec.getLsbD_setWidth]
  simp [hj]
  omega

theorem reflectByte_xor (b c : Byte) : reflectByte (b ^^^ c) = reflectByte b ^^^ reflectByte c := by
  refine BitVec.eq_of_getLsbD_eq fun j hj => ?_
  simp only [reflectByte_getLsbD _ hj, BitVec.getLsbD_xor]

/-- The source's rule on the register of R105: where `REFIN` has reflected it, a second reflection undoes the first. -/
theorem finalValueReflected_eq {W : Nat} (hW : W ≤ 64) {R : Word} (hR : R ≤ mask W) (refin refout : Bool)
    (xorout : Word) :
    finalValueReflected W refin refout xorout (reflectedRegister W refin R) =
      (if refout then reflect R W else R) ^^^ xorout := by
  have hback : reflect (reflect R W) W = R := (reflect_reflect hW R).trans (and_mask_eq_self hW hR)
  cases refin <;> cases refout <;> simp [finalValueReflected, reflectedRegister, hback]

/-! ### The statements -/

/-- Settles O11: R90's number and its bits. -/
theorem maskIsTwoPowMinusOne : Obligations.MaskIsTwoPowMinusOne :=
  ⟨fun _ _ hW => ⟨mask_toNat hW, mask_getLsbD_of_le hW⟩, rfl⟩

/-- Settles O12: the loop of R91, bit by bit. -/
theorem reflectReversesLowBits : Obligations.ReflectReversesLowBits :=
  ⟨fun v _ j hn => reflect_getLsbD hn v j,
    fun v _ hn => (le_mask_iff hn _).mp (reflect_le_mask hn v), fun _ => rfl⟩

/-- Settles O13: bit `j` comes back from position `n - 1 - j`. -/
theorem reflectTwiceMasks : Obligations.ReflectTwiceMasks :=
  ⟨fun v _ _ hn => reflect_reflect hn v, fun _ => rfl⟩

/-- Settles O20: the register reflected twice is the register, as it fits in `W` bits. -/
theorem checksumOnReflectedRegister : Obligations.ChecksumOnReflectedRegister := by
  intro W R xorout refin refout _ hW hR hx
  have heq := finalValueReflected_eq hW hR refin refout xorout
  refine ⟨heq, heq.trans (and_mask_eq_self hW (xor_le_mask hW ?_ hx)).symm⟩
  cases refout
  · exact hR
  · exact reflect_le_mask hW R

end Sys2Proof.Machine

/-! PROOF. The updates of the remainder (40_datapath.md R94 to R104): they are linear over GF(2), and feeding a
register its own top bits shifts it, so the table's index (R100), the plain division steps (R98) and the reflected
register (R104) are all the same eight bit-steps. -/

namespace Sys2Proof

theorem bitWord_xor (a b : Bool) : bitWord (a ^^ b) = bitWord a ^^^ bitWord b := by
  cases a <;> cases b <;> rfl

end Sys2Proof

namespace Sys2Proof.Machine

/-! ### Linearity (R106) -/

/-- The register after the shift, less `P` where the top bit was set. -/
theorem plainStep_eq_xor_ite (W : Nat) (P R : Word) :
    plainStep W P R = ((R <<< 1) &&& mask W) ^^^ (if R.getLsbD (W - 1) then P else 0#64) := by
  unfold plainStep
  split
  · rfl
  · exact BitVec.xor_zero.symm

theorem ite_xor_word (a b : Bool) (P : Word) :
    (if a ^^ b then P else 0#64) = (if a then P else 0#64) ^^^ (if b then P else 0#64) := by
  cases a <;> cases b <;> simp

/-- Regroups the XOR of two sums. -/
theorem xor_xor_xor_comm {n : Nat} (a b c d : BitVec n) : (a ^^^ b) ^^^ (c ^^^ d) = (a ^^^ c) ^^^ (b ^^^ d) := by
  ac_rfl

theorem plainStep_xor (W : Nat) (P R R' : Word) :
    plainStep W P (R ^^^ R') = plainStep W P R ^^^ plainStep W P R' := by
  simp only [plainStep_eq_xor_ite, BitVec.shiftLeft_xor_distrib, and_mask_xor, BitVec.getLsbD_xor,
    ite_xor_word]
  exact xor_xor_xor_comm ..

theorem bitstep_xor (W : Nat) (P R R' : Word) (b b' : Bool) :
    bitstep W P (R ^^^ R') (b ^^ b') = bitstep W P R b ^^^ bitstep W P R' b' := by
  rw [bitstep_eq_plainStep, bitWord_xor, BitVec.shiftLeft_xor_distrib, xor_xor_xor_comm, plainStep_xor]
  rfl

/-- Two messages, given bit by bit over the same positions `ks`. -/
theorem feedBits_xor (W : Nat) (P R R' : Word) (ks : List Nat) (f g : Nat → Bool) :
    feedBits W P (R ^^^ R') (ks.map fun k => f k ^^ g k) =
      feedBits W P R (ks.map f) ^^^ feedBits W P R' (ks.map g) := by
  induction ks generalizing R R' with
  | nil => rfl
  | cons k ks ih =>
    simp only [List.map_cons, feedBits_cons, bitstep_xor, ih]

theorem feed_xor (W : Nat) (P R R' : Word) (v v' : Byte) (n : Nat) (l : Bool) :
    feed W P (R ^^^ R') (v ^^^ v') n l = feed W P R v n l ^^^ feed W P R' v' n l := by
  simp only [feed, messageBits, BitVec.getLsbD_xor]
  exact feedBits_xor ..

theorem table_xor (W : Nat) (P : Word) (i j : Byte) : table W P (i ^^^ j) = table W P i ^^^ table W P j :=
  feed_xor W P 0#64 0#64 i j 8 false

theorem table_zero (W : Nat) (P : Word) : table W P 0#8 = 0#64 := by
  have h := table_xor W P 0#8 0#8
  rwa [BitVec.xor_self, BitVec.xor_self] at h

/-! ### The order of the bits (R95) -/

@[simp] theorem feed_zero (W : Nat) (P R : Word) (v : Byte) (l : Bool) : feed W P R v 0 l = R := rfl

theorem feed_succ_msb (W : Nat) (P R : Word) (v : Byte) (n : Nat) :
    feed W P R v (n + 1) false = feed W P (bitstep W P R (v.getLsbD n)) v n false := by
  rw [feed, messageBits_succ_msb, feedBits_cons, ← feed]

theorem feed_succ_lsb (W : Nat) (P R : Word) (v : Byte) (n : Nat) :
    feed W P R v (n + 1) true = bitstep W P (feed W P R v n true) (v.getLsbD n) := by
  rw [feed, messageBits_succ_lsb, feedBits_append, ← feed, feedBits_cons, feedBits_nil]

theorem messageBits_congr {v v' : Byte} {n : Nat} (h : ∀ k < n, v'.getLsbD k = v.getLsbD k) (l : Bool) :
    messageBits v' n l = messageBits v n l := by
  refine List.map_congr_left fun k hk => h _ ?_
  have : k < n := List.mem_range.mp hk
  split <;> omega

/-- The least significant bit first is the reflected byte, most significant bit first (R100). -/
theorem messageBits_reflectByte (v : Byte) : messageBits (reflectByte v) 8 false = messageBits v 8 true := by
  refine List.map_congr_left fun k hk => ?_
  have hk : k < 8 := List.mem_range.mp hk
  simp only [Bool.false_eq_true, if_false, if_true]
  rw [reflectByte_getLsbD v (by omega), show 7 - (8 - 1 - k) = k by omega]

theorem messageBits_inputByte (refin : Bool) (v : Byte) :
    messageBits (inputByte refin v) 8 false = messageBits v 8 refin := by
  cases refin
  · rfl
  · exact messageBits_reflectByte v

theorem inputByte_xor (refin : Bool) (v v' : Byte) :
    inputByte refin (v ^^^ v') = inputByte refin v ^^^ inputByte refin v' := by
  cases refin
  · rfl
  · exact reflectByte_xor v v'

/-- The low byte of a word (R100, R104). -/
theorem setWidth_and_0xFF (v : Word) : (v &&& 0xFF#64).setWidth 8 = v.setWidth 8 := by
  rw [BitVec.setWidth_and]
  exact BitVec.and_allOnes

/-! ### A register fed its own top bits -/

section
variable {W : Nat} (hW : W ≤ 64)
include hW

theorem shiftLeft_and_mask_shiftLeft (R : Word) (m n : Nat) :
    (((R <<< m) &&& mask W) <<< n) &&& mask W = (R <<< (m + n)) &&& mask W := by
  refine BitVec.eq_of_getLsbD_eq fun k _ => ?_
  rw [shiftLeft_and_mask_getLsbD hW, shiftLeft_and_mask_getLsbD hW, shiftLeft_and_mask_getLsbD hW,
    show k - n - m = k - (m + n) by omega]
  grind

theorem shiftLeft_and_mask_eq_zero (R : Word) {n : Nat} (hn : W ≤ n) : (R <<< n) &&& mask W = 0#64 := by
  refine BitVec.eq_of_getLsbD_eq fun k _ => ?_
  rw [shiftLeft_and_mask_getLsbD hW, decide_eq_false (by omega), Bool.false_and, BitVec.getLsbD_zero]

/-- The message bit enters at the top of the register (R94). -/
theorem bitWord_shiftLeft_getLsbD (hpos : 1 ≤ W) (b : Bool) (k : Nat) :
    (bitWord b <<< (W - 1)).getLsbD k = (b && decide (k = W - 1)) := by
  rw [BitVec.getLsbD_shiftLeft, bitWord_getLsbD]
  grind

/-- A message bit equal to the top bit cancels it, so nothing is subtracted. -/
theorem bitstep_top (hpos : 1 ≤ W) (P R : Word) :
    bitstep W P R ((reflect R W).getLsbD 0) = (R <<< 1) &&& mask W := by
  rw [reflect_getLsbD hW, decide_eq_true (by omega), Bool.true_and, Nat.sub_zero, bitstep_eq_plainStep,
    plainStep_eq_xor_ite, if_neg, BitVec.xor_zero]
  · refine BitVec.eq_of_getLsbD_eq fun k _ => ?_
    rw [shiftLeft_and_mask_getLsbD hW, shiftLeft_and_mask_getLsbD hW, BitVec.getLsbD_xor,
      bitWord_shiftLeft_getLsbD hW hpos]
    grind
  · rw [BitVec.getLsbD_xor, bitWord_shiftLeft_getLsbD hW hpos]
    simp

/-- The bits that enter cancel the bits that leave: what remains is the shift. -/
theorem feedBits_top (hpos : 1 ≤ W) (P : Word) {R : Word} (hR : R ≤ mask W) (n : Nat) :
    feedBits W P R ((List.range n).map (reflect R W).getLsbD) = (R <<< n) &&& mask W := by
  induction n with
  | zero => simp [and_mask_eq_self hW hR]
  | succ n ih =>
    have htop : (reflect R W).getLsbD n = (reflect ((R <<< n) &&& mask W) W).getLsbD 0 := by
      rw [reflect_shiftLeft_and_mask hW, BitVec.getLsbD_ushiftRight, Nat.add_zero]
    rw [List.range_succ, List.map_append, feedBits_append, ih, List.map_singleton, htop, feedBits_cons,
      feedBits_nil, bitstep_top hW hpos, shiftLeft_and_mask_shiftLeft hW]

/-- Feeding a register is feeding its top bits, XORed into the message, from zero, and the shift of its low bits. -/
theorem feedBits_eq_feedBits_zero_xor (hpos : 1 ≤ W) (P : Word) {R : Word} (hR : R ≤ mask W) (n : Nat)
    (f : Nat → Bool) :
    feedBits W P R ((List.range n).map f) =
      feedBits W P 0#64 ((List.range n).map fun k => f k ^^ (reflect R W).getLsbD k) ^^^
        ((R <<< n) &&& mask W) := by
  rw [← feedBits_top hW hpos P hR, ← feedBits_xor, BitVec.zero_xor]
  simp only [Bool.xor_assoc, Bool.xor_self, Bool.xor_false]

/-! ### The table-driven byte update (R100, R101) -/

/-- The index of R100, at every width: the byte with the top bits of the register XORed in. -/
theorem romIndex_eq_xor (R : Word) (c : Byte) :
    romIndex W R c = c ^^^ reflectByte ((reflect R W).setWidth 8) := by
  refine BitVec.eq_of_getLsbD_eq fun j hj => ?_
  rw [BitVec.getLsbD_xor, reflectByte_getLsbD _ hj, BitVec.getLsbD_setWidth, decide_eq_true (by omega),
    Bool.true_and, reflect_getLsbD hW, Bool.xor_comm]
  unfold romIndex
  split
  · simp [hj, show 7 - j < W by omega, show W - 1 - (7 - j) = W - 8 + j by omega]
  · rw [setWidth_and_0xFF]
    have hlow : decide (7 - j < W) = !decide (j < 8 - W) := by grind
    simp [hj, hlow, show W - 1 - (7 - j) = j - (8 - W) by omega]

/-- Below width 8 the whole register is shifted out, so the update has one form at every width (R100). -/
theorem bytestep_eq_xor (P : Word) (refin : Bool) (R : Word) (byte : Byte) :
    bytestep W P refin R byte =
      table W P (romIndex W R (inputByte refin byte)) ^^^ ((R <<< 8) &&& mask W) := by
  unfold bytestep
  split
  · exact BitVec.xor_comm ..
  · rw [shiftLeft_and_mask_eq_zero hW R (by omega), BitVec.xor_zero]

theorem bytestep_eq_feed (hpos : 1 ≤ W) (P : Word) (refin : Bool) {R : Word} (hR : R ≤ mask W) (byte : Byte) :
    bytestep W P refin R byte = feed W P R byte 8 refin := by
  rw [bytestep_eq_xor hW, table, feed, feed, ← messageBits_inputByte refin]
  unfold messageBits
  rw [feedBits_eq_feedBits_zero_xor hW hpos P hR]
  congr 2
  refine List.map_congr_left fun k hk => ?_
  have hk : k < 8 := List.mem_range.mp hk
  simp only [Bool.false_eq_true, if_false]
  rw [romIndex_eq_xor hW, BitVec.getLsbD_xor, reflectByte_getLsbD _ (by omega), BitVec.getLsbD_setWidth,
    decide_eq_true (by omega), Bool.true_and, show 7 - (8 - 1 - k) = k by omega]

theorem romIndex_xor (R R' : Word) (c c' : Byte) :
    romIndex W (R ^^^ R') (c ^^^ c') = romIndex W R c ^^^ romIndex W R' c' := by
  simp only [romIndex_eq_xor hW, reflect_xor hW, BitVec.setWidth_xor, reflectByte_xor]
  exact xor_xor_xor_comm ..

theorem bytestep_xor (P R R' : Word) (v v' : Byte) (refin : Bool) :
    bytestep W P refin (R ^^^ R') (v ^^^ v') = bytestep W P refin R v ^^^ bytestep W P refin R' v' := by
  simp only [bytestep_eq_xor hW, inputByte_xor, romIndex_xor hW, table_xor, BitVec.shiftLeft_xor_distrib,
    and_mask_xor]
  exact xor_xor_xor_comm ..

/-! ### The reflected register (R103, R104) -/

theorem bytestepReflected_reflect (P R : Word) (byte : Byte) :
    bytestepReflected W P (reflect R W) byte = reflect (bytestep W P true R byte) W := by
  have hstep : reflect (bytestep W P true R byte) W =
      reflect R W >>> 8 ^^^ tableReflected W P (byte ^^^ (reflect R W).setWidth 8) := by
    rw [bytestep_eq_xor hW, reflect_xor hW, reflect_shiftLeft_and_mask hW, romIndex_eq_xor hW,
      tableReflected, reflectByte_xor, BitVec.xor_comm]
    rfl
  rw [bytestepReflected, setWidth_and_0xFF, BitVec.setWidth_xor, BitVec.setWidth_setWidth_of_le _ (by omega),
    BitVec.setWidth_eq, BitVec.xor_comm _ byte, ← hstep]
  exact and_mask_eq_self hW (reflect_le_mask hW _)

/-! ### Plain division steps (R98) -/

omit hW in
theorem plainSteps_eq_feedBits (P R : Word) (n : Nat) :
    plainSteps W P n R = feedBits W P R ((List.range n).map fun _ => false) := by
  rw [List.map_const', List.length_range]
  induction n generalizing R with
  | zero => rfl
  | succ n ih => rw [plainSteps_succ, ih, List.replicate_succ, feedBits_cons, bitstep_false]

omit hW in
theorem plainSteps_add (P R : Word) (m n : Nat) :
    plainSteps W P (m + n) R = plainSteps W P n (plainSteps W P m R) := by
  simp only [plainSteps_eq_feedBits, List.map_const', List.length_range, List.replicate_add, feedBits_append]

theorem plainSteps_eq_feedBits_zero_xor (hpos : 1 ≤ W) (P : Word) {R : Word} (hR : R ≤ mask W) (n : Nat) :
    plainSteps W P n R =
      feedBits W P 0#64 ((List.range n).map (reflect R W).getLsbD) ^^^ ((R <<< n) &&& mask W) := by
  rw [plainSteps_eq_feedBits, feedBits_eq_feedBits_zero_xor hW hpos P hR]
  simp only [Bool.false_xor]

end

section
variable {W : Nat} (h8 : 8 ≤ W) (hW : W ≤ 64)
include h8 hW

/-- A byte shifted left by at most `W - 8` fits in `W` bits. -/
theorem byte_shiftLeft_and_mask (i : Byte) {n : Nat} (hn : n ≤ W - 8) :
    (i.setWidth 64 <<< n) &&& mask W = i.setWidth 64 <<< n := by
  refine BitVec.eq_of_getLsbD_eq fun k hk => ?_
  rw [shiftLeft_and_mask_getLsbD hW, BitVec.getLsbD_shiftLeft, BitVec.getLsbD_setWidth]
  have : 8 ≤ k - n → i.getLsbD (k - n) = false := i.getLsbD_of_ge _
  grind

theorem byte_shiftLeft_le_mask (i : Byte) {n : Nat} (hn : n ≤ W - 8) : i.setWidth 64 <<< n ≤ mask W :=
  byte_shiftLeft_and_mask h8 hW i hn ▸ and_mask_le ..

/-- The byte in the high byte of the register: its bits leave as they would enter from a zero register. -/
theorem table_eq_plainSteps_high (P : Word) (i : Byte) :
    table W P i = plainSteps W P 8 (i.setWidth 64 <<< (W - 8)) := by
  rw [plainSteps_eq_feedBits_zero_xor hW (by omega) P (byte_shiftLeft_le_mask h8 hW i le_rfl),
    ← BitVec.shiftLeft_add, shiftLeft_and_mask_eq_zero hW _ (by omega), BitVec.xor_zero, table, feed]
  refine congrArg (feedBits W P 0#64) (List.map_congr_left fun k hk => ?_)
  have hk : k < 8 := List.mem_range.mp hk
  rw [reflect_getLsbD hW, BitVec.getLsbD_shiftLeft, BitVec.getLsbD_setWidth,
    show W - 1 - k - (W - 8) = 8 - 1 - k by omega]
  grind

/-- The byte in the low byte of the register: its zero top bits leave first, which shifts it into the high byte. -/
theorem plainSteps_low (P : Word) (i : Byte) :
    plainSteps W P (W - 8) (i.setWidth 64) = i.setWidth 64 <<< (W - 8) := by
  have htop : ∀ k ∈ List.range (W - 8), false = (reflect (i.setWidth 64) W).getLsbD k := fun k hk => by
    have hk : k < W - 8 := List.mem_range.mp hk
    rw [reflect_getLsbD hW, BitVec.getLsbD_setWidth, i.getLsbD_of_ge _ (by omega), Bool.and_false,
      Bool.and_false]
  have hi : i.setWidth 64 ≤ mask W := by simpa using byte_shiftLeft_le_mask h8 hW i (Nat.zero_le _)
  rw [plainSteps_eq_feedBits, List.map_congr_left htop, feedBits_top hW (by omega) P hi,
    byte_shiftLeft_and_mask h8 hW i le_rfl]

end

/-! ### The statements -/

/-- Settles O15: one more bit comes first or last, by the recursion of `messageBits`. -/
theorem feedOrder : Obligations.FeedOrder := fun W P R v =>
  ⟨feed_zero W P R v, feed_succ_msb W P R v, feed_succ_lsb W P R v,
    fun _ _ l h => congrArg (feedBits W P R) (messageBits_congr h l)⟩

/-- Settles O18: the index takes up the bits that leave the register, and the shift keeps the others. -/
theorem byteUpdateEqualsEightBitSteps : Obligations.ByteUpdateEqualsEightBitSteps :=
  fun _ P _ byte refin hpos hW _ hR => bytestep_eq_feed hW hpos P refin hR byte

/-- Settles O21: the step is a shift, a mask and a choice by one bit, each linear; the other updates are built of it. -/
theorem updatesAreLinear : Obligations.UpdatesAreLinear := fun W P _ hW =>
  ⟨bitstep_xor W P, feed_xor W P, bytestep_xor hW P, table_xor W P, table_zero W P⟩

/-- Settles O19: reflection turns the shift, the index and the table of R100 into those of R104. -/
theorem reflectedRegisterFollowsRemainder : Obligations.ReflectedRegisterFollowsRemainder := by
  intro W P R byte _ hW hP _
  have hstep := bytestepReflected_reflect hW P R byte
  exact ⟨by rw [hstep, reflect_reflect hW, and_mask_eq_self hW (bytestep_le_mask hW hP ..)], hstep⟩

/-- Settles O17: the eight bit-steps by R95's recursion; both formulations by what plain steps do to a byte. -/
theorem tableEqualsSourceFormulations : Obligations.TableEqualsSourceFormulations := by
  refine ⟨fun W P i => ?_, fun W P i h8 hW _ => ⟨table_eq_plainSteps_high h8 hW P i, ?_⟩⟩
  · simp only [table, feed_succ_msb, feed_zero]
  · calc table W P i = plainSteps W P 8 (plainSteps W P (W - 8) (i.setWidth 64)) := by
          rw [plainSteps_low h8 hW, table_eq_plainSteps_high h8 hW]
      _ = plainSteps W P W (i.setWidth 64) := by
          rw [← plainSteps_add, Nat.sub_add_cancel h8]

end Sys2Proof.Machine

/-! PROOF. The bit-step over unbounded numbers and over 65-bit values (40_datapath.md R94, R96), as division of
polynomials over GF(2) (R107), and the width of every datapath result (R108). -/

namespace Sys2Proof.Machine

/-! ### The step over the naturals (R94) -/

section
variable {W : Nat} (hW : W ≤ 64)
include hW

theorem toNat_shiftLeft_and_mask (v : Word) (n : Nat) :
    ((v <<< n) &&& mask W).toNat = (v.toNat <<< n) &&& (2 ^ W - 1) := by
  rw [BitVec.toNat_and, mask_toNat hW, BitVec.toNat_shiftLeft, Nat.and_two_pow_sub_one_eq_mod,
    Nat.and_two_pow_sub_one_eq_mod, Nat.mod_mod_of_dvd _ (pow_dvd_pow 2 hW)]

theorem toNat_xor_bitWord_shiftLeft (hpos : 1 ≤ W) (R : Word) (b : Bool) :
    (R ^^^ bitWord b <<< (W - 1)).toNat = R.toNat ^^^ b.toNat <<< (W - 1) := by
  have hlt : 2 ^ (W - 1) < 2 ^ 64 := Nat.pow_lt_pow_right (by omega) (by omega)
  rw [BitVec.toNat_xor, BitVec.toNat_shiftLeft]
  congr 1
  cases b
  · simp
  · simpa [Nat.shiftLeft_eq] using hlt

theorem toNat_plainStep (P R : Word) :
    (plainStep W P R).toNat =
      if R.toNat.testBit (W - 1) then ((R.toNat <<< 1) &&& (2 ^ W - 1)) ^^^ P.toNat
      else (R.toNat <<< 1) &&& (2 ^ W - 1) := by
  rw [plainStep, BitVec.testBit_toNat, ← toNat_shiftLeft_and_mask hW]
  split
  · exact BitVec.toNat_xor ..
  · rfl

end

/-- At width 1 the register is one bit, and the shift empties it. -/
theorem plainStep_one (P : Word) {R : Word} (hR : R ≤ mask 1) :
    plainStep 1 P R = if R = 0#64 then 0#64 else P := by
  have hR' : R = 0#64 ∨ R = 1#64 := by
    have := (le_mask_iff (by omega) R).mp hR
    bv_omega
  rw [plainStep_eq_xor_ite, shiftLeft_and_mask_eq_zero (by omega) R le_rfl]
  rcases hR' with rfl | rfl <;> simp

/-! ### The step on 65-bit values (R96) -/

section
variable {W : Nat} (hW : W ≤ 64)
include hW

omit hW in
theorem ite_one_shiftLeft_getLsbD (b : Bool) {k : Nat} (hk : k < 65) :
    (if b then 1#65 <<< W else 0#65).getLsbD k = (b && decide (k = W)) := by
  cases b
  · simp
  · rw [if_pos rfl, BitVec.getLsbD_shiftLeft, BitVec.getLsbD_one]
    grind

/-- Before the mask, the shift moves the top bit to position `W`. -/
theorem setWidth_shiftLeft_and_mask {v : Word} (hv : v ≤ mask W) :
    ((v <<< 1) &&& mask W).setWidth 65 =
      (v.setWidth 65 <<< 1) ^^^ (if v.getLsbD (W - 1) then 1#65 <<< W else 0#65) := by
  refine BitVec.eq_of_getLsbD_eq fun k hk => ?_
  have hvk : W ≤ k - 1 → v.getLsbD (k - 1) = false := (le_mask_iff_getLsbD hW v).mp hv (k - 1)
  rw [BitVec.getLsbD_setWidth, shiftLeft_and_mask_getLsbD hW, BitVec.getLsbD_xor, BitVec.getLsbD_shiftLeft,
    BitVec.getLsbD_setWidth, ite_one_shiftLeft_getLsbD _ hk]
  grind

theorem generator_eq_xor {P : Word} (hP : P ≤ mask W) :
    (1#65 <<< W) ||| P.setWidth 65 = (1#65 <<< W) ^^^ P.setWidth 65 := by
  refine BitVec.eq_of_getLsbD_eq fun k hk => ?_
  have hPk : W ≤ k → P.getLsbD k = false := (le_mask_iff_getLsbD hW P).mp hP k
  rw [BitVec.getLsbD_or, BitVec.getLsbD_xor, BitVec.getLsbD_shiftLeft, BitVec.getLsbD_setWidth, BitVec.getLsbD_one]
  grind

theorem setWidth_plainStep {P R : Word} (hP : P ≤ mask W) (hR : R ≤ mask W) :
    (plainStep W P R).setWidth 65 = (R.setWidth 65 <<< 1) ^^^
      (if R.getLsbD (W - 1) then (1#65 <<< W) ||| P.setWidth 65 else 0#65) := by
  rw [plainStep_eq_xor_ite, BitVec.setWidth_xor, setWidth_shiftLeft_and_mask hW hR,
    generator_eq_xor hW hP]
  cases R.getLsbD (W - 1) <;> simp [BitVec.xor_assoc]

theorem bitWord_shiftLeft_le_mask (hpos : 1 ≤ W) (b : Bool) : bitWord b <<< (W - 1) ≤ mask W := by
  refine (le_mask_iff_getLsbD hW _).mpr fun k hk => ?_
  rw [bitWord_shiftLeft_getLsbD hW hpos, decide_eq_false (by omega), Bool.and_false]

theorem xor_bitWord_shiftLeft_le_mask (hpos : 1 ≤ W) {R : Word} (hR : R ≤ mask W) (b : Bool) :
    R ^^^ bitWord b <<< (W - 1) ≤ mask W :=
  xor_le_mask hW hR (bitWord_shiftLeft_le_mask hW hpos b)

end

/-! ### Words as polynomials over GF(2) (R107) -/

section
open Polynomial

/-- The polynomial of a `W`-bit value. -/
noncomputable def wordPoly (W : Nat) (v : Word) : (ZMod 2)[X] :=
  ∑ k ∈ Finset.range W, if v.getLsbD k then X ^ k else 0

/-- The polynomial of the message bits, the first at the highest power, moved up by the width. -/
noncomputable def messagePoly (W : Nat) (bits : List Bool) : (ZMod 2)[X] :=
  ∑ j ∈ Finset.range bits.length, if bits.getD j false then X ^ (W + bits.length - (j + 1)) else 0

/-- The generator `x^W + P`. -/
noncomputable def generatorPoly (W : Nat) (P : Word) : (ZMod 2)[X] := X ^ W + wordPoly W P

theorem ite_xor_poly (a b : Bool) (p : (ZMod 2)[X]) :
    (if a ^^ b then p else 0) = (if a then p else 0) + (if b then p else 0) := by
  cases a <;> cases b <;> simp [CharTwo.add_self_eq_zero]

theorem wordPoly_xor (W : Nat) (v w : Word) : wordPoly W (v ^^^ w) = wordPoly W v + wordPoly W w := by
  simp only [wordPoly, BitVec.getLsbD_xor, ite_xor_poly, Finset.sum_add_distrib]

theorem wordPoly_degree_lt (W : Nat) (v : Word) : (wordPoly W v).degree < W := by
  refine mem_degreeLT.mp (Submodule.sum_mem _ fun k hk => mem_degreeLT.mpr ?_)
  have hk : k < W := Finset.mem_range.mp hk
  split
  · rw [degree_X_pow]
    exact_mod_cast hk
  · rw [degree_zero]
    exact WithBot.bot_lt_coe W

theorem generatorPoly_monic (W : Nat) (P : Word) : (generatorPoly W P).Monic :=
  monic_X_pow_add (wordPoly_degree_lt W P)

theorem wordPoly_degree_lt_generatorPoly (W : Nat) (P v : Word) :
    (wordPoly W v).degree < (generatorPoly W P).degree := by
  have hG : (generatorPoly W P).degree = W := by
    rw [generatorPoly, degree_add_eq_left_of_degree_lt] <;> rw [degree_X_pow]
    exact wordPoly_degree_lt W P
  exact hG ▸ wordPoly_degree_lt W v

theorem wordPoly_bitWord_shiftLeft {W : Nat} (hpos : 1 ≤ W) (hW : W ≤ 64) (b : Bool) :
    wordPoly W (bitWord b <<< (W - 1)) = if b then X ^ (W - 1) else 0 := by
  simp only [wordPoly, bitWord_shiftLeft_getLsbD hW hpos, Bool.and_eq_true, decide_eq_true_eq]
  cases b
  · simp
  · simp [show W ≠ 0 by omega]

/-- Times `x` is the shift, with the top bit moved to `x^W`. -/
theorem wordPoly_mul_X {W : Nat} (hpos : 1 ≤ W) (hW : W ≤ 64) (v : Word) :
    wordPoly W v * X =
      wordPoly W ((v <<< 1) &&& mask W) + (if v.getLsbD (W - 1) then X ^ W else 0) := by
  obtain ⟨n, rfl⟩ : ∃ n, W = n + 1 := ⟨W - 1, by omega⟩
  have hlow : ∀ k ∈ Finset.range n, (if ((v <<< 1) &&& mask (n + 1)).getLsbD (k + 1) then X ^ (k + 1) else 0) =
      (if v.getLsbD k then (X : (ZMod 2)[X]) ^ k else 0) * X := fun k hk => by
    have hk : k < n := Finset.mem_range.mp hk
    rw [shiftLeft_and_mask_getLsbD hW, decide_eq_true (by omega), Bool.true_and, ite_mul, zero_mul, pow_succ,
      Nat.add_sub_cancel]
  rw [wordPoly, wordPoly, Finset.sum_range_succ, Finset.sum_range_succ', Finset.sum_congr rfl hlow, add_mul,
    Finset.sum_mul, shiftLeft_and_mask_getLsbD hW]
  simp [ite_mul, pow_succ]

/-- A plain step subtracts the generator where the top bit is set. -/
theorem generatorPoly_dvd_plainStep {W : Nat} (hpos : 1 ≤ W) (hW : W ≤ 64) (P R : Word) :
    generatorPoly W P ∣ wordPoly W R * X - wordPoly W (plainStep W P R) := by
  rw [wordPoly_mul_X hpos hW, plainStep_eq_xor_ite, wordPoly_xor, add_sub_add_left_eq_sub]
  cases R.getLsbD (W - 1)
  · simp [wordPoly]
  · simp [generatorPoly, CharTwo.sub_eq_add]

theorem generatorPoly_dvd_bitstep {W : Nat} (hpos : 1 ≤ W) (hW : W ≤ 64) (P R : Word) (b : Bool) :
    generatorPoly W P ∣ wordPoly W R * X + (if b then X ^ W else 0) - wordPoly W (bitstep W P R b) := by
  have hstep := generatorPoly_dvd_plainStep hpos hW P (R ^^^ bitWord b <<< (W - 1))
  have hpow : (X : (ZMod 2)[X]) ^ (W - 1) * X = X ^ W := by rw [← pow_succ, Nat.sub_add_cancel hpos]
  rwa [wordPoly_xor, wordPoly_bitWord_shiftLeft hpos hW, add_mul, ite_mul, zero_mul, hpow,
    ← bitstep_eq_plainStep] at hstep

theorem messagePoly_cons (W : Nat) (b : Bool) (bs : List Bool) :
    messagePoly W (b :: bs) = (if b then X ^ W else 0) * X ^ bs.length + messagePoly W bs := by
  have hpow (j : Nat) : W + (bs.length + 1) - (j + 1 + 1) = W + bs.length - (j + 1) := by omega
  rw [messagePoly, List.length_cons, Finset.sum_range_succ', add_comm]
  congr 1
  · simp [ite_mul, ← pow_add]
  · simp only [List.getD_cons_succ, hpow]
    rfl

theorem generatorPoly_dvd_feedBits {W : Nat} (hpos : 1 ≤ W) (hW : W ≤ 64) (P R : Word) (bits : List Bool) :
    generatorPoly W P ∣
      wordPoly W R * X ^ bits.length + messagePoly W bits - wordPoly W (feedBits W P R bits) := by
  induction bits generalizing R with
  | nil => simp [messagePoly]
  | cons b bs ih =>
    have hstep := (generatorPoly_dvd_bitstep hpos hW P R b).mul_right (X ^ bs.length)
    convert hstep.add (ih (bitstep W P R b)) using 1
    rw [messagePoly_cons, feedBits_cons, List.length_cons]
    ring

/-- The word is the remainder of what it is congruent to, as it fits below the generator. -/
theorem wordPoly_eq_modByMonic {W : Nat} {P v : Word} {f : (ZMod 2)[X]}
    (h : generatorPoly W P ∣ f - wordPoly W v) : wordPoly W v = f %ₘ generatorPoly W P := by
  rw [modByMonic_eq_of_dvd_sub (generatorPoly_monic W P) h,
    (modByMonic_eq_self_iff (generatorPoly_monic W P)).mpr (wordPoly_degree_lt_generatorPoly W P v)]

end

/-! ### The statements -/

/-- Settles O14: the plain step on the register with the message bit added at the top. -/
theorem bitstepOverNaturals : Obligations.BitstepOverNaturals := by
  intro W P R b hpos hW hP hR
  rw [← le_mask_iff hW] at hP hR
  have hnat := toNat_plainStep hW P (R ^^^ bitWord b <<< (W - 1))
  rw [toNat_xor_bitWord_shiftLeft hW hpos, ← bitstep_eq_plainStep] at hnat
  refine ⟨hnat, (le_mask_iff hW _).mp (bitstep_le_mask hW hP R b), ?_, ?_⟩
  · rintro rfl
    rw [bitstep_eq_plainStep, plainStep_one P (xor_bitWord_shiftLeft_le_mask hW hpos hR b), Nat.sub_self,
      BitVec.shiftLeft_zero]
  · rintro rfl
    rw [hnat, BitVec.toNat_zero, Nat.xor_zero, ite_self, Nat.and_two_pow_sub_one_eq_mod, Nat.shiftLeft_eq,
      pow_one]

/-- Settles O16: the shift moves the top bit to position `W`, where `G` has its leading bit. -/
theorem bitstepSubtractsGenerator : Obligations.BitstepSubtractsGenerator := by
  intro W P R b hpos hW hP hR
  have hstep := setWidth_plainStep hW hP (xor_bitWord_shiftLeft_le_mask hW hpos hR b)
  rw [← bitstep_eq_plainStep] at hstep
  intro r1 G
  rwa [BitVec.getLsbD_setWidth, decide_eq_true (by omega), Bool.true_and]

/-- Settles O22: every step is congruent to `R x + b x^W` modulo the generator, and its result has a lower degree. -/
theorem feedIsPolynomialRemainder : Obligations.FeedIsPolynomialRemainder := fun _ P R hpos hW _ _ =>
  ⟨fun b => wordPoly_eq_modByMonic (generatorPoly_dvd_bitstep hpos hW P R b),
    fun bits => wordPoly_eq_modByMonic (generatorPoly_dvd_feedBits hpos hW P R bits)⟩

/-- Settles O23: whatever is written passes the mask last, or `P`, which fits, after it. -/
theorem datapathResultsFit : Obligations.DatapathResultsFit := fun _ _ R x v byte b l refin _ n _ hW hP hR =>
  ⟨bitstep_le_mask hW hP R b, feed_le_mask hW hP hR v n l, table_le_mask hW hP v,
    bytestep_le_mask hW hP refin R byte, reflect_le_mask hW x, and_mask_le ..⟩

end Sys2Proof.Machine

/-! PROOF. The configuration and reset commands (41_configure.md R110 to R115): the statements' readings of a command that
writes `REM`, only reads or is refused, for the shared operations; each command's effect is a function of the registers; and
a program without CONFIGURE keeps the parameter registers, so a RESET at its end restores the state after CONFIGURE. -/

namespace Sys2Proof.Machine

/-! ### What the shared operations do, as the statements say it -/

theorem writesRem_of_updateRem {i : Instr} {op : BitVec 4} {f : Engine → Word}
    (hi : ∀ s, exec i s = updateRem op f s) : WritesRem i (rsp0 op .ok) f := by
  intro s e he
  refine ⟨_, (hi s).trans (updateRem_some op f he), ?_, answered_setRem_respond ..⟩
  rw [respond_engine?, setRem_engine?, he, Option.map_some]

theorem refusedUnconfigured_of_updateRem {i : Instr} {op : BitVec 4} {f : Engine → Word}
    (hi : ∀ s, exec i s = updateRem op f s) : RefusedUnconfigured i (rsp0 op .notConfigured) :=
  fun s he => ⟨_, (hi s).trans (updateRem_none op f he), rfl, answered_respond ..⟩

theorem readsOut_of_readOut {i : Instr} {op : BitVec 4} {f : Engine → Word}
    (hi : ∀ s, exec i s = readOut op f s) : ReadsOut i (rsp0 op .ok) f :=
  fun s _ he => ⟨_, (hi s).trans (readOut_some op f he), rfl, answered_respond ..⟩

/-- A header's opcode is that of the row it matches, so one that matches no row of its opcode matches none at all (R71). -/
theorem reservedBitsIllegal_of_rows {op : BitVec 4} {rows : List (Word × Word)}
    (hrows : ∀ r ∈ opcodeMap, r.pattern.extractLsb' 0 4 = op → (r.pattern, r.mask) ∈ rows) :
    ReservedBitsIllegal op rows (rsp0 op .illegalCommand) := by
  rintro h ops s rfl _ hne
  have hrow : ∀ r ∈ opcodeMap, h &&& r.mask ≠ r.pattern := fun r hr e =>
    hne _ (hrows r hr (extractLsb'_of_row e (opcodeMap_mask_op r hr)).symm) e
  exact ⟨_, runCommand_illegal hrow ops s, rfl, answered_respond ..⟩

/-! ### CONFIGURE by its cases (R110) -/

theorem exec_configure_of_fixed {s : State} {q : Params} (hm : s.mode = .fixed q) (w ri ro p ini x) :
    exec (.configure w ri ro p ini x) s = .next (s.respond 0x1#4 .illegalCommand 0#64) := by
  rcases exec_configure_cases w ri ro p ini x s with ⟨_, _, h⟩ | ⟨hm', _⟩ | ⟨hm', _⟩
  · exact h
  · cases hm.symm.trans hm'
  · cases hm.symm.trans hm'

section
variable {s : State} (hm : s.mode = .programmable)
include hm

theorem exec_configure_of_valid {w p ini x} (hv : valid w p ini x = true) (ri ro) :
    exec (.configure w ri ro p ini x) s =
      .next ((s.load ⟨w, p, ini, x, ri, ro⟩).respond 0x1#4 .ok 0#64) := by
  rcases exec_configure_cases w ri ro p ini x s with ⟨_, hm', _⟩ | ⟨_, _, h⟩ | ⟨_, hv', _⟩
  · cases hm.symm.trans hm'
  · exact h
  · cases hv.symm.trans hv'

theorem exec_configure_of_invalid {w p ini x} (hv : valid w p ini x = false) (ri ro) :
    exec (.configure w ri ro p ini x) s = .next (s.respond 0x1#4 .parameterOutOfRange 0#64) := by
  rcases exec_configure_cases w ri ro p ini x s with ⟨_, hm', _⟩ | ⟨_, hv', _⟩ | ⟨_, _, h⟩
  · cases hm.symm.trans hm'
  · cases hv.symm.trans hv'
  · exact h

end

/-- The masks of CONFIGURE and RESET leave an `INIT` that passed the check of R111 as it is. -/
theorem init_and_mask {p : Params} (hp : paramsValid p = true) : p.init &&& mask p.width.toNat = p.init := by
  obtain ⟨hW, _, hI⟩ := paramsValid_bounds hp
  exact and_mask_eq_self hW hI

/-- A valid CONFIGURE leaves the given parameters and `REM = INIT`, whatever the block held before (R114). -/
theorem exec_configure_block {s : State} {p : Params} (hm : s.mode = .programmable)
    (hp : paramsValid p = true) :
    ∃ t, exec (.configure p.width p.refin p.refout p.poly p.init p.xorout) s = .next t ∧
      t.block = .programmable (some ⟨p, p.init⟩) ∧ Answered s t (rsp0 0x1#4 .ok) 0#64 := by
  refine ⟨_, exec_configure_of_valid hm hp p.refin p.refout, ?_, answered_load_respond ..⟩
  rw [respond_block, load_block_of_programmable p hm, init_and_mask hp]

/-! ### RESET and RESET_INIT (R112, R113) -/

theorem writesRem_reset :
    WritesRem .reset 0x200#64 (fun e => e.params.init &&& mask e.params.width.toNat) :=
  writesRem_of_updateRem exec_reset

theorem writesRem_resetInit (r : Word) :
    WritesRem (.resetInit r) 0x200#64 (fun e => r &&& mask e.params.width.toNat) :=
  writesRem_of_updateRem (exec_resetInit r)

/-- RESET on valid parameters sets `REM = INIT`. -/
theorem exec_reset_of_paramsValid {s : State} {e : Engine} (he : s.engine? = some e)
    (hp : paramsValid e.params = true) :
    ∃ t, exec .reset s = .next t ∧ t.mode = s.mode ∧ t.engine? = some ⟨e.params, e.params.init⟩ := by
  obtain ⟨t, h, ht, _, _, _, _, hmode, _⟩ := writesRem_reset s e he
  exact ⟨t, h, hmode, by simpa only [init_and_mask hp] using ht⟩

/-! ### A command reads no state but the registers (R115) -/

/-- The outcomes of a command on `s` and on `s'`: the same registers and the same response. -/
abbrev AnswersAlike (s s' : State) (o o' : Out) : Prop :=
  ∃ t t' r0 r1, o = .next t ∧ o' = .next t' ∧ t.block = t'.block ∧ Answered s t r0 r1 ∧ Answered s' t' r0 r1

section
variable {s s' : State} (h : s.block = s'.block)
include h

theorem answersAlike_respond (op st d) :
    AnswersAlike s s' (.next (s.respond op st d)) (.next (s'.respond op st d)) :=
  ⟨_, _, _, _, rfl, rfl, h, answered_respond .., answered_respond ..⟩

theorem answersAlike_setRem (v op st d) :
    AnswersAlike s s' (.next ((s.setRem v).respond op st d)) (.next ((s'.setRem v).respond op st d)) :=
  ⟨_, _, _, _, rfl, rfl, by simp [State.setRem, h], answered_setRem_respond .., answered_setRem_respond ..⟩

theorem answersAlike_load (p op st d) :
    AnswersAlike s s' (.next ((s.load p).respond op st d)) (.next ((s'.load p).respond op st d)) :=
  ⟨_, _, _, _, rfl, rfl, by simp [State.load, h], answered_load_respond .., answered_load_respond ..⟩

theorem answersAlike_withEngine (op) {k k' : Engine → State}
    (hk : ∀ e, AnswersAlike s s' (.next (k e)) (.next (k' e))) :
    AnswersAlike s s' (withEngine op k s) (withEngine op k' s') := by
  cases he : s.engine? with
  | none =>
    rw [withEngine_none op k he, withEngine_none op k' (engine?_congr h ▸ he)]
    exact answersAlike_respond h ..
  | some e =>
    rw [withEngine_some op k he, withEngine_some op k' (engine?_congr h ▸ he)]
    exact hk e

theorem answersAlike_updateRem (op f) : AnswersAlike s s' (updateRem op f s) (updateRem op f s') :=
  answersAlike_withEngine h op fun _ => answersAlike_setRem h ..

theorem answersAlike_readOut (op f) : AnswersAlike s s' (readOut op f s) (readOut op f s') :=
  answersAlike_withEngine h op fun _ => answersAlike_respond h ..

theorem answersAlike_configure (w ri ro p ini x) :
    AnswersAlike s s' (exec (.configure w ri ro p ini x) s) (exec (.configure w ri ro p ini x) s') := by
  have hmode : s'.mode = s.mode := (mode_congr h).symm
  cases hm : s.mode with
  | fixed q =>
    rw [exec_configure_of_fixed hm, exec_configure_of_fixed (hmode.trans hm)]
    exact answersAlike_respond h ..
  | programmable =>
    cases hv : valid w p ini x with
    | true =>
      rw [exec_configure_of_valid hm hv, exec_configure_of_valid (hmode.trans hm) hv]
      exact answersAlike_load h ..
    | false =>
      rw [exec_configure_of_invalid hm hv, exec_configure_of_invalid (hmode.trans hm) hv]
      exact answersAlike_respond h ..

theorem answersAlike_processBits (v n) :
    AnswersAlike s s' (exec (.processBits v n) s) (exec (.processBits v n) s') := by
  refine answersAlike_withEngine h 0x4#4 fun e => ?_
  split
  · exact answersAlike_setRem h ..
  · exact answersAlike_respond h ..

theorem answersAlike_exec (i : Instr) : AnswersAlike s s' (exec i s) (exec i s') := by
  cases i with
  | configure w ri ro p ini x => exact answersAlike_configure h ..
  | processBits v n => exact answersAlike_processBits h ..
  | reset | resetInit _ | processBit _ | processByte _ => exact answersAlike_updateRem h ..
  | checksum | getTruncatedPolynomial | getInitialRemainder | getFinalXorValue | getReflectInput
  | getReflectRemainder | getInterimRemainder | getBitCount => exact answersAlike_readOut h ..

end

/-! ### Programs -/

theorem runCommands_programWords_cons {i : Instr} {s t : State} (h : exec i s = .next t) (is : List Instr) :
    runCommands (programWords (i :: is)) s = runCommands (programWords is) t := by
  simp only [programWords, List.map_cons, runCommands, runCommand_encode, h]

theorem runCommands_programWords_append {is : List Instr} {s t : State}
    (h : runCommands (programWords is) s = .next t) (js : List Instr) :
    runCommands (programWords (is ++ js)) s = runCommands (programWords js) t := by
  rw [programWords, List.map_append, runCommands_append, ← programWords, h, ← programWords]

/-- A program without CONFIGURE writes `REM` at most: it keeps `MODE` and the parameter registers. -/
theorem runCommands_params_of_not_configure {is : List Instr} {s : State}
    (his : ∀ i ∈ is, ∀ w ri ro p ini x, i ≠ .configure w ri ro p ini x) :
    ∃ t, runCommands (programWords is) s = .next t ∧ t.mode = s.mode ∧
      t.engine?.map (·.params) = s.engine?.map (·.params) := by
  induction is generalizing s with
  | nil => exact ⟨s, rfl, rfl, rfl⟩
  | cons i is ih =>
    obtain ⟨u, hu⟩ := runCommand_next (encode i) s
    rw [runCommand_encode] at hu
    obtain ⟨_, _, _, _, _, _, hmode, _⟩ := exec_answered hu
    obtain ⟨_, hparams⟩ := exec_params_of_not_configure hu (his i (by simp))
    obtain ⟨t, ht, hmode', hparams'⟩ := ih (s := u) fun j hj => his j (by simp [hj])
    exact ⟨t, (runCommands_programWords_cons hu is).trans ht, hmode'.trans hmode, hparams'.trans hparams⟩

theorem ne_configure_of_isRead_or_isProcess {i : Instr} (hi : isRead i = true ∨ isProcess i = true) :
    ∀ w ri ro p ini x, i ≠ .configure w ri ro p ini x := by
  rintro w ri ro p ini x rfl
  rcases hi with hi | hi <;> cases hi

/-- After any PROCESS and read commands, RESET brings back the registers of CONFIGURE (R115). -/
theorem runCommands_reset_block {X : List Instr} {s : State} {p : Params}
    (hs : s.block = .programmable (some ⟨p, p.init⟩)) (hp : paramsValid p = true)
    (hX : ∀ i ∈ X, isRead i = true ∨ isProcess i = true) :
    ∃ t, runCommands (programWords (X ++ [.reset])) s = .next t ∧ t.block = s.block := by
  have hse : s.engine? = some ⟨p, p.init⟩ := by rw [State.engine?, hs]
  obtain ⟨u, hu, humode, huparams⟩ := runCommands_params_of_not_configure (s := s) fun i hi =>
    ne_configure_of_isRead_or_isProcess (hX i hi)
  rw [hse, Option.map_some, Option.map_eq_some_iff] at huparams
  obtain ⟨e, he, rfl⟩ := huparams
  obtain ⟨t, ht, htmode, hte⟩ := exec_reset_of_paramsValid he hp
  refine ⟨t, ?_, block_ext (htmode.trans humode) (hte.trans hse.symm)⟩
  rw [runCommands_programWords_append hu, runCommands_programWords_cons ht]
  rfl

/-! ### The statements -/

/-- Settles O25: `valid` is R111's formula, with `2^w - 1` for `mask(w)`. -/
theorem validIsTheRangeCheck : Obligations.ValidIsTheRangeCheck := by
  intro w p i x
  simp only [valid_iff, Nat.le_sub_one_iff_lt (Nat.two_pow_pos _)]

/-- Settles O26: one clause for each case of R110; the byte update after it runs on the registers just loaded. -/
theorem configureLoadsOrRefuses : Obligations.ConfigureLoadsOrRefuses := by
  intro w ri ro p i x
  refine ⟨rfl, fun s hm hv => ?valid, fun s hm hv => ?invalid, fun s q hm => ?fixed,
    reservedBitsIllegal_of_rows (by decide)⟩
  case valid =>
    obtain ⟨t, h, hblock, hans⟩ := exec_configure_block (p := ⟨w, p, i, x, ri, ro⟩) hm hv
    have he : t.engine? = some ⟨⟨w, p, i, x, ri, ro⟩, i⟩ := by rw [State.engine?, hblock]
    refine ⟨t, h, by rw [State.cfgValid, he, Option.isSome_some], hblock, hans, fun byte => ?_⟩
    obtain ⟨u, hu, hue, _⟩ := writesRem_of_updateRem (exec_processByte byte) t _ he
    exact ⟨u, hu, hue⟩
  case invalid => exact ⟨_, exec_configure_of_invalid hm hv ri ro, rfl, answered_respond ..⟩
  case fixed => exact ⟨_, exec_configure_of_fixed hm .., rfl, answered_respond ..⟩

/-- Settles O27: RESET is a write of `REM`, and straight after CONFIGURE `REM` holds the value written. -/
theorem resetLoadsInit : Obligations.ResetLoadsInit := by
  refine ⟨rfl, refusedUnconfigured_of_updateRem exec_reset, writesRem_reset, fun s p he hp => ?_,
    reservedBitsIllegal_of_rows (by decide)⟩
  obtain ⟨t, h, hmode, hte⟩ := exec_reset_of_paramsValid he hp
  exact ⟨t, h, block_ext hmode (hte.trans he.symm)⟩

/-- Settles O28: neither RESET_INIT nor the read command after it writes `INIT`. -/
theorem resetInitMasksOperand : Obligations.ResetInitMasksOperand := by
  intro r
  refine ⟨rfl, refusedUnconfigured_of_updateRem (exec_resetInit r), writesRem_resetInit r, fun s e he => ?_⟩
  obtain ⟨t1, h1, he1, hq1, _⟩ := writesRem_resetInit r s e he
  obtain ⟨t2, h2, hblock, hq2, _⟩ := readsOut_of_readOut exec_getInitialRemainder t1 _ he1
  obtain ⟨t3, h3, he3, hq3, _⟩ := writesRem_reset t2 _ ((engine?_congr hblock).trans he1)
  refine ⟨t3, ?_, he3, ?_⟩
  · rw [runCommands_programWords_cons h1, runCommands_programWords_cons h2, runCommands_programWords_cons h3]
    rfl
  · rw [hq3, hq2, hq1, List.append_assoc, List.append_assoc]
    rfl

/-- Settles O29: every command is a function of the registers; the commands between CONFIGURE and RESET keep the
parameters, and RESET sets `REM = INIT`, as CONFIGURE and the power-on reset of a FIXED block do. -/
theorem resetRestoresPostConstruction : Obligations.ResetRestoresPostConstruction := by
  refine ⟨fun i s s' h => answersAlike_exec h i, fun p X s hm hp hX => ?_, fun p s f rem hm hp hf => ?_⟩
  · obtain ⟨u, hu, hublock, _⟩ := exec_configure_block hm hp
    obtain ⟨t, ht, htblock⟩ := runCommands_reset_block hublock hp hX
    exact ⟨t, u, (runCommands_programWords_cons hu _).trans ht, hu, htblock⟩
  · obtain ⟨u, hu, hublock, _⟩ := exec_configure_block hm hp
    have hue : u.engine? = some ⟨p, p.init⟩ := by rw [State.engine?, hublock]
    have hfe : f.engine? = some ⟨p, rem⟩ := by rw [State.engine?, hf]
    obtain ⟨t, ht, _, hte⟩ := exec_reset_of_paramsValid hfe hp
    exact ⟨t, u, ht, hu, hte.trans hue.symm, by simp [State.engine?, State.powerOnReset, hf, hublock]⟩

end Sys2Proof.Machine

/-! PROOF. The remainder update commands (42_update.md R120 to R125): on registers within R27's bounds each of them feeds a
list of message bits, so two programs that feed the same bits have the same effect; PROCESS_BYTE commands in a row advance
the registers byte by byte, whatever stands in the queues. -/

namespace Sys2Proof.Machine

/-! ### The message bits (R43, R95) -/

/-- The least significant bit first: the bits from position `m` on come last. -/
theorem messageBits_add_lsb (v : Byte) (m n : Nat) :
    messageBits v (m + n) true = messageBits v m true ++ messageBits (v >>> m) n true := by
  simp [messageBits, List.range_add, Function.comp_def]

/-- The most significant bit first: the bits from position `m` on come first. -/
theorem messageBits_add_msb (v : Byte) (m n : Nat) :
    messageBits v (m + n) false = messageBits (v >>> m) n false ++ messageBits v m false := by
  simp only [messageBits, Nat.add_comm m n, List.range_add, List.map_append, List.map_map, Bool.false_eq_true,
    if_false]
  congr 1
  · refine List.map_congr_left fun k hk => ?_
    have hk : k < n := List.mem_range.mp hk
    rw [BitVec.getLsbD_ushiftRight, show n + m - 1 - k = m + (n - 1 - k) by omega]
  · refine List.map_congr_left fun k _ => ?_
    rw [Function.comp_apply, show n + m - 1 - (n + k) = m - 1 - k by omega]

theorem messageBits_and_0xF (v : Byte) (l : Bool) : messageBits (v &&& 0xF#8) 4 l = messageBits v 4 l := by
  have hmask : ∀ k < 4, (0xF#8).getLsbD k = true := by decide
  refine messageBits_congr (fun k hk => ?_) l
  rw [BitVec.getLsbD_and, hmask k hk, Bool.and_true]

/-! ### The datapath functions at a fixed width -/

/-- At width 1 the message bit is XORed into the whole register (R120). -/
theorem bitstep_one (P : Word) {R : Word} (hR : R ≤ mask 1) (b : Bool) :
    bitstep 1 P R b = if R ^^^ bitWord b = 0#64 then 0#64 else P := by
  rw [bitstep_eq_plainStep, plainStep_one P (xor_bitWord_shiftLeft_le_mask (by omega) le_rfl hR b),
    Nat.sub_self, BitVec.shiftLeft_zero]

/-- At width 8 the whole register enters the table index and nothing of it is left (R122). -/
theorem bytestep_eight (P : Word) (refin : Bool) (R : Word) (byte : Byte) :
    bytestep 8 P refin R byte = table 8 P (R.setWidth 8 ^^^ inputByte refin byte) := by
  rw [bytestep_eq_xor (by omega), shiftLeft_and_mask_eq_zero (by omega) R le_rfl, BitVec.xor_zero]
  simp [romIndex]

theorem bytestep_eq_feed_of_engineFits {e : Engine} (h : engineFits e = true) (byte : Byte) :
    bytestep e.params.width.toNat e.params.poly e.params.refin e.rem byte =
      feed e.params.width.toNat e.params.poly e.rem byte 8 e.params.refin := by
  obtain ⟨hp, hR⟩ := (engineFits_iff e).mp h
  obtain ⟨hpos, hW, _⟩ := (valid_iff ..).mp hp
  exact bytestep_eq_feed hW hpos _ _ hR byte

/-! ### PROCESS_BITS by its cases (R121) -/

theorem exec_processBits_congr {v v' : Byte} {n : BitVec 4} (h : ∀ k < n.toNat, v'.getLsbD k = v.getLsbD k)
    (s : State) : exec (.processBits v' n) s = exec (.processBits v n) s := by
  simp only [exec, execProcessBits, feed, messageBits_congr h]

section
variable {s : State} {e : Engine} (he : s.engine? = some e)
include he

theorem exec_processBits_of_le (v : Byte) {n : BitVec 4} (hn : n.toNat ≤ 8) :
    exec (.processBits v n) s =
      .next ((s.setRem (feed e.params.width.toNat e.params.poly e.rem v n.toNat e.params.refin)).respond
        0x4#4 .ok 0#64) := by
  rcases exec_processBits_cases v n s with ⟨he', _⟩ | ⟨e', he', _, h⟩ | ⟨_, _, hgt, _⟩
  · cases he.symm.trans he'
  · cases he.symm.trans he'
    exact h
  · omega

theorem exec_processBits_of_gt (v : Byte) {n : BitVec 4} (hn : 8 < n.toNat) :
    exec (.processBits v n) s = .next (s.respond 0x4#4 .bitCountOutOfRange 0#64) := by
  rcases exec_processBits_cases v n s with ⟨he', _⟩ | ⟨_, _, hle, _⟩ | ⟨_, _, _, h⟩
  · cases he.symm.trans he'
  · omega
  · exact h

end

theorem writesRem_processBits (v : Byte) {n : BitVec 4} (hn : n.toNat ≤ 8) :
    WritesRem (.processBits v n) (rsp0 0x4#4 .ok)
      (fun e => feed e.params.width.toNat e.params.poly e.rem v n.toNat e.params.refin) := by
  intro s e he
  refine ⟨_, exec_processBits_of_le he v hn, ?_, answered_setRem_respond ..⟩
  rw [respond_engine?, setRem_engine?, he, Option.map_some]

/-! ### A program that feeds message bits (R123) -/

/-- On registers within R27's bounds with this `REFIN`, the program feeds `bits` to the remainder, writes no other register
and answers every command OK with no data. -/
def FeedsBits (refin : Bool) (is : List Instr) (bits : List Bool) : Prop :=
  ∀ (s : State) (e : Engine), registersFit s = true → s.engine? = some e → e.params.refin = refin →
    ∃ t, runCommands (programWords is) s = .next t ∧ registersFit t = true ∧ t.mode = s.mode ∧
      t.engine? = some { e with rem := feedBits e.params.width.toNat e.params.poly e.rem bits } ∧
      t.rspQueue = s.rspQueue ++ is.flatMap fun i => [(i.op ++ 0x00#8).setWidth 64, 0#64]

theorem feedsBits_nil (refin : Bool) : FeedsBits refin [] [] :=
  fun s _ hfit he _ => ⟨s, rfl, hfit, rfl, he, (List.append_nil _).symm⟩

theorem FeedsBits.append {refin : Bool} {is js : List Instr} {bits bits' : List Bool}
    (h : FeedsBits refin is bits) (h' : FeedsBits refin js bits') :
    FeedsBits refin (is ++ js) (bits ++ bits') := by
  intro s e hfit he hrefin
  obtain ⟨t, ht, htfit, htmode, hte, htq⟩ := h s e hfit he hrefin
  obtain ⟨u, hu, hufit, humode, hue, huq⟩ := h' t _ htfit hte hrefin
  refine ⟨u, (runCommands_programWords_append ht js).trans hu, hufit, humode.trans htmode, ?_, ?_⟩
  · rw [hue, feedBits_append]
  · rw [huq, htq, List.flatMap_append, List.append_assoc]

/-- One command that writes to `REM` the feed of some bits. -/
theorem feedsBits_of_writesRem {refin : Bool} {i : Instr} {f : Engine → Word} {bits : List Bool}
    (hi : WritesRem i (rsp0 i.op .ok) f)
    (hf : ∀ e, engineFits e = true → e.params.refin = refin →
      f e = feedBits e.params.width.toNat e.params.poly e.rem bits) :
    FeedsBits refin [i] bits := by
  intro s e hfit he hrefin
  obtain ⟨t, ht, hte, htq, _, _, _, htmode, _⟩ := hi s e he
  refine ⟨t, runCommands_programWords_cons ht [], exec_registersFit hfit ht, htmode, ?_, htq⟩
  rw [hte, hf e ((registersFit_iff s).mp hfit e he) hrefin]

theorem feedsBits_processBit (refin b : Bool) : FeedsBits refin [.processBit b] [b] :=
  feedsBits_of_writesRem (writesRem_of_updateRem (exec_processBit b)) fun _ _ _ => rfl

theorem feedsBits_processBits (refin : Bool) (v : Byte) {n : BitVec 4} (hn : n.toNat ≤ 8) :
    FeedsBits refin [.processBits v n] (messageBits v n.toNat refin) :=
  feedsBits_of_writesRem (writesRem_processBits v hn) fun _ _ hrefin => by rw [hrefin, feed]

theorem feedsBits_processByte (refin : Bool) (byte : Byte) :
    FeedsBits refin [.processByte byte] (messageBits byte 8 refin) :=
  feedsBits_of_writesRem (writesRem_of_updateRem (exec_processByte byte)) fun e hfit hrefin => by
    rw [bytestep_eq_feed_of_engineFits hfit, hrefin, feed]

/-- PROCESS_BIT commands feed their bits in the order they stand, whatever `REFIN` is. -/
theorem feedsBits_map_processBit (refin : Bool) (bits : List Bool) :
    FeedsBits refin (bits.map .processBit) bits := by
  induction bits with
  | nil => exact feedsBits_nil refin
  | cons b bits ih => exact (feedsBits_processBit refin b).append ih

/-- The two halves of a byte, the low one first when `REFIN` is set. -/
theorem feedsBits_nibbles (refin : Bool) (b : Byte) :
    FeedsBits refin
      (if refin then [.processBits (b &&& 0xF#8) 4#4, .processBits (b >>> 4) 4#4]
        else [.processBits (b >>> 4) 4#4, .processBits (b &&& 0xF#8) 4#4])
      (messageBits b 8 refin) := by
  have hlow : FeedsBits refin [.processBits (b &&& 0xF#8) 4#4] (messageBits b 4 refin) :=
    messageBits_and_0xF b refin ▸ feedsBits_processBits refin _ (by decide)
  have hhigh : FeedsBits refin [.processBits (b >>> 4) 4#4] (messageBits (b >>> 4) 4 refin) :=
    feedsBits_processBits refin _ (by decide)
  cases refin with
  | true =>
    rw [messageBits_add_lsb b 4 4]
    exact hlow.append hhigh
  | false =>
    rw [messageBits_add_msb b 4 4]
    exact hhigh.append hlow

/-- Two programs that feed the same bits have the same effect. -/
theorem sameEffectAt_of_feedsBits {s : State} {e : Engine} (hfit : registersFit s = true)
    (he : s.engine? = some e) {is js : List Instr} {bits : List Bool}
    (h : FeedsBits e.params.refin is bits) (h' : FeedsBits e.params.refin js bits) : SameEffectAt s is js := by
  obtain ⟨t, ht, _, htmode, hte, htq⟩ := h s e hfit he rfl
  obtain ⟨u, hu, _, humode, hue, huq⟩ := h' s e hfit he rfl
  exact ⟨t, u, ht, hu, block_ext (htmode.trans humode.symm) (hte.trans hue.symm), htq, huq⟩

/-! ### PROCESS_BYTE commands in a row, then reads (R124, R125) -/

theorem exec_processByte_registersAfter (byte : Byte) (s : State) :
    ∃ t, exec (.processByte byte) s = .next t ∧ t.mode = s.mode ∧
      t.engine? = registersAfter s.engine? [byte] ∧
      t.rspQueue = s.rspQueue ++ byteResponses s.engine? 1 := by
  cases he : s.engine? with
  | none => exact ⟨_, updateRem_none _ _ he, rfl, he, rfl⟩
  | some e =>
    refine ⟨_, updateRem_some _ _ he, setRem_mode .., ?_, rfl⟩
    rw [respond_engine?, setRem_engine?, he]
    rfl

/-- The registers advance byte by byte, with one response for each byte, configured or not. -/
theorem runCommands_map_processByte (bytes : List Byte) (s : State) :
    ∃ t, runCommands (programWords (bytes.map .processByte)) s = .next t ∧ t.mode = s.mode ∧
      t.engine? = registersAfter s.engine? bytes ∧
      t.rspQueue = s.rspQueue ++ byteResponses s.engine? bytes.length := by
  induction bytes generalizing s with
  | nil => exact ⟨s, rfl, rfl, (registersAfter_nil _).symm, (List.append_nil _).symm⟩
  | cons byte bytes ih =>
    obtain ⟨t, ht, htmode, hte, htq⟩ := exec_processByte_registersAfter byte s
    obtain ⟨u, hu, humode, hue, huq⟩ := ih t
    refine ⟨u, (runCommands_programWords_cons ht _).trans hu, humode.trans htmode, ?_, ?_⟩
    · rw [hue, hte, ← registersAfter_append, List.singleton_append]
    · have hsome : t.engine?.isSome = s.engine?.isSome := by rw [hte, registersAfter_isSome]
      rw [huq, htq, byteResponses_congr hsome, List.append_assoc, ← byteResponses_add, List.length_cons,
        Nat.add_comm]

/-- The host's bytes at `ptr`, in ascending addresses (R124). -/
def hostBytes (mem : Nat → Byte) (ptr n : Nat) : List Byte := (List.range n).map fun k => mem (ptr + k)

theorem hostBytes_add (mem : Nat → Byte) (ptr m n : Nat) :
    hostBytes mem ptr (m + n) = hostBytes mem ptr m ++ hostBytes mem (ptr + m) n := by
  simp [hostBytes, List.range_add, Nat.add_assoc]

theorem processBytes_eq_map (mem : Nat → Byte) (ptr n : Nat) :
    processBytes mem ptr n = (hostBytes mem ptr n).map .processByte := by
  simp [processBytes, hostBytes]

theorem processBytes_add (mem : Nat → Byte) (ptr m n : Nat) :
    processBytes mem ptr (m + n) = processBytes mem ptr m ++ processBytes mem (ptr + m) n := by
  simp only [processBytes_eq_map, hostBytes_add, List.map_append]

theorem runCommands_processBytes (mem : Nat → Byte) (ptr n : Nat) (s : State) :
    ∃ t, runCommands (programWords (processBytes mem ptr n)) s = .next t ∧ t.mode = s.mode ∧
      t.engine? = registersAfter s.engine? (hostBytes mem ptr n) ∧
      t.rspQueue = s.rspQueue ++ byteResponses s.engine? n := by
  have hlen : (hostBytes mem ptr n).length = n := by simp [hostBytes]
  have h := runCommands_map_processByte (hostBytes mem ptr n) s
  rwa [hlen, ← processBytes_eq_map] at h

theorem exec_checksum_response (s : State) :
    ∃ t, exec .checksum s = .next t ∧ t.engine? = s.engine? ∧
      t.rspQueue = s.rspQueue ++ checksumResponse s.engine? := by
  cases he : s.engine? with
  | none => exact ⟨_, readOut_none _ _ he, he, rfl⟩
  | some e => exact ⟨_, readOut_some _ _ he, he, rfl⟩

theorem runCommands_processBytes_checksum (mem : Nat → Byte) (ptr n : Nat) (s : State) :
    ∃ t, runCommands (programWords (processBytes mem ptr n ++ [.checksum])) s = .next t ∧
      t.engine? = registersAfter s.engine? (hostBytes mem ptr n) ∧
      t.rspQueue = s.rspQueue ++ byteResponses s.engine? n ++ checksumResponse t.engine? := by
  obtain ⟨t, ht, _, hte, htq⟩ := runCommands_processBytes mem ptr n s
  obtain ⟨u, hu, hue, huq⟩ := exec_checksum_response t
  refine ⟨u, ?_, hue.trans hte, by rw [huq, htq, hue]⟩
  rw [runCommands_programWords_append ht, runCommands_programWords_cons hu]
  rfl

/-- Read commands write no register, however many there are (R48). -/
theorem runCommands_block_of_isRead {X : List Instr} (hX : ∀ i ∈ X, isRead i = true) (s : State) :
    ∃ t, runCommands (programWords X) s = .next t ∧ t.block = s.block := by
  induction X generalizing s with
  | nil => exact ⟨s, rfl, rfl⟩
  | cons i X ih =>
    obtain ⟨hi, hX⟩ := List.forall_mem_cons.mp hX
    obtain ⟨t, ht⟩ := runCommand_next (encode i) s
    rw [runCommand_encode] at ht
    obtain ⟨u, hu, hublock⟩ := ih hX t
    exact ⟨u, (runCommands_programWords_cons ht X).trans hu, hublock.trans (exec_block_of_isRead hi ht)⟩

theorem runCommands_processBytes_reads (mem : Nat → Byte) (ptr n : Nat) {X : List Instr}
    (hX : ∀ i ∈ X, isRead i = true) (s : State) :
    ∃ t, runCommands (programWords (processBytes mem ptr n ++ X)) s = .next t ∧
      t.engine? = registersAfter s.engine? (hostBytes mem ptr n) := by
  obtain ⟨t, ht, _, hte, _⟩ := runCommands_processBytes mem ptr n s
  obtain ⟨u, hu, hublock⟩ := runCommands_block_of_isRead hX t
  exact ⟨u, (runCommands_programWords_append ht X).trans hu, (engine?_congr hublock).trans hte⟩

/-! ### The statements -/

/-- Settles O32: a write of `REM`; the table update is the feed of the eight bits on registers that fit, and at width 8
the table alone. -/
theorem processByteUpdates : Obligations.ProcessByteUpdates := by
  intro byte
  have hwrites := writesRem_of_updateRem (exec_processByte byte)
  refine ⟨rfl, refusedUnconfigured_of_updateRem (exec_processByte byte), hwrites,
    fun s e ⟨_, hfit, _⟩ he => ?_, reservedBitsIllegal_of_rows (by decide)⟩
  obtain ⟨t, ht, hte, _⟩ := hwrites s e he
  refine ⟨t, ht, ?_, fun hw => ?_⟩
  · simp only [hte, bytestep_eq_feed_of_engineFits ((registersFit_iff s).mp hfit e he)]
  · have hW : e.params.width.toNat = 8 := by rw [hw, BitVec.toNat_ofNat]
    simp only [hte, hW, bytestep_eight]

/-- Settles O33: in each pair both programs feed the byte's, or the count's, message bits in the order of `REFIN`. -/
theorem updateEquivalences : Obligations.UpdateEquivalences := by
  intro s e ⟨_, hfit, _⟩ he
  have hbits (v : Byte) (n : Nat) := feedsBits_map_processBit e.params.refin (messageBits v n e.params.refin)
  refine ⟨fun b => ?bits8, fun b => ?eightBits, fun v n hn => ?singleBits, fun b => ?nibbles⟩
  case bits8 =>
    exact sameEffectAt_of_feedsBits hfit he (feedsBits_processByte _ b) (feedsBits_processBits _ b (by decide))
  case eightBits =>
    have hlist : (messageBits b 8 e.params.refin).map Instr.processBit =
        (if e.params.refin then [0, 1, 2, 3, 4, 5, 6, 7] else [7, 6, 5, 4, 3, 2, 1, 0]).map fun k =>
          .processBit (b.getLsbD k) := by
      cases e.params.refin <;> rfl
    exact sameEffectAt_of_feedsBits hfit he (feedsBits_processByte _ b) (hlist ▸ hbits b 8)
  case singleBits =>
    have h := hbits v n.toNat
    rw [messageBits, List.map_map] at h
    exact sameEffectAt_of_feedsBits hfit he (feedsBits_processBits _ v hn) h
  case nibbles =>
    exact sameEffectAt_of_feedsBits hfit he (feedsBits_processByte _ b) (feedsBits_nibbles _ b)

/-- Settles O30: a write of `REM`, which at width 1 is the one bit that the message bit is XORed into. -/
theorem processBitAdvances : Obligations.ProcessBitAdvances := by
  intro b
  have hwrites := writesRem_of_updateRem (exec_processBit b)
  refine ⟨rfl, refusedUnconfigured_of_updateRem (exec_processBit b), hwrites,
    fun s e ⟨_, hfit, _⟩ he hw => ?_, reservedBitsIllegal_of_rows (by decide)⟩
  obtain ⟨t, ht, hte, _⟩ := hwrites s e he
  obtain ⟨_, hR⟩ := (engineFits_iff e).mp ((registersFit_iff s).mp hfit e he)
  have hW : e.params.width.toNat = 1 := by rw [hw, BitVec.toNat_ofNat]
  rw [hW] at hR
  exact ⟨t, ht, by simp only [hte, hW, bitstep_one _ hR]⟩

/-- Settles O31: a write of `REM` for a count up to 8, with the value `REM` holds for the count 0, and else an error. -/
theorem processBitsFeeds : Obligations.ProcessBitsFeeds := by
  intro v n
  refine ⟨rfl, fun s he => ⟨_, withEngine_none _ _ he, rfl, answered_respond ..⟩, writesRem_processBits v,
    fun hn s hs => ?zero,
    fun hn s e he => ⟨_, exec_processBits_of_gt he v hn, rfl, answered_respond ..⟩,
    fun _ s h => exec_processBits_congr h s, reservedBitsIllegal_of_rows (by decide)⟩
  case zero =>
    obtain ⟨e, he⟩ := Option.isSome_iff_exists.mp hs
    refine ⟨_, exec_processBits_of_le he v (by omega), ?_⟩
    rw [hn, feed_zero, setRem_self he, respond_block]

/-- Settles O34: the expansion is the host's bytes, one command each; an unconfigured block stays as it is. -/
theorem processBytesExpands : Obligations.ProcessBytesExpands := by
  intro mem ptr len
  refine ⟨by simp [processBytes], fun k hk => by simp [processBytes, hk], rfl, fun s => ?_⟩
  obtain ⟨t, ht, htmode, hte, htq⟩ := runCommands_processBytes mem ptr len s
  refine ⟨t, ht, htq, fun hs => block_ext htmode ?_⟩
  have he : s.engine? = none := by simpa [State.cfgValid] using hs
  rw [hte, he]
  rfl

/-- Settles O35: the registers advance over the bytes of both parts alike, and reads between the parts leave them. -/
theorem processBytesConcatenates : Obligations.ProcessBytesConcatenates := by
  refine fun mem ptr m n => ⟨processBytes_add mem ptr m n, fun s X hX => ?_⟩
  obtain ⟨a, ha, hae⟩ := runCommands_processBytes_reads mem ptr m hX s
  obtain ⟨c, hc, hce, hcq⟩ := runCommands_processBytes_checksum mem ptr (m + n) s
  refine ⟨a, c, ha, hc, hce, hcq, fun s' hs' => ?_⟩
  obtain ⟨b, hb, hbe, hbq⟩ := runCommands_processBytes_checksum mem (ptr + m) n s'
  have hbc : b.engine? = c.engine? := by
    rw [hbe, hs', hae, hce, ← registersAfter_append, hostBytes_add]
  have hsome : s'.engine?.isSome = s.engine?.isSome := by rw [hs', hae, registersAfter_isSome]
  exact ⟨b, hb, hbc, by rw [hbq, hbc, byteResponses_congr hsome]⟩

end Sys2Proof.Machine

/-! PROOF. The checksum and accessor commands (43_readout.md R130 to R139): each of them is refused on an unconfigured block
and reads one function of the registers on a configured one, so its answer stays the same as long as the registers do. -/

namespace Sys2Proof.Machine

/-! ### A command that only reads -/

theorem refusedUnconfigured_of_readOut {i : Instr} {op : BitVec 4} {f : Engine → Word}
    (hi : ∀ s, exec i s = readOut op f s) : RefusedUnconfigured i (rsp0 op .notConfigured) :=
  fun s he => ⟨_, (hi s).trans (readOut_none op f he), rfl, answered_respond ..⟩

/-- A read command straight after a command answers from the registers that command leaves. -/
theorem runCommands_then_read {i j : Instr} {s t : State} {e : Engine} {r0 r1 ok : Word} {f : Engine → Word}
    (h : exec i s = .next t) (hans : Answered s t r0 r1) (he : t.engine? = some e) (hj : ReadsOut j ok f) :
    ∃ u, runCommands (programWords [i, j]) s = .next u ∧ u.rspQueue = s.rspQueue ++ [r0, r1, ok, f e] := by
  obtain ⟨u, hu, _, huq, _⟩ := hj t e he
  obtain ⟨htq, _⟩ := hans
  refine ⟨u, ?_, by rw [huq, htq, List.append_assoc, List.cons_append, List.cons_append, List.nil_append]⟩
  rw [runCommands_programWords_cons h, runCommands_programWords_cons hu]
  rfl

theorem readsOut_checksum : ReadsOut .checksum 0x600#64 (fun e =>
    ((if e.params.refout then reflect e.rem e.params.width.toNat else e.rem) ^^^ e.params.xorout) &&&
      mask e.params.width.toNat) :=
  readsOut_of_readOut exec_checksum

/-! ### The statements -/

/-- Settles O40: `X` and `i` itself leave the registers alone, and `i` answers alike on the same registers. -/
theorem readsArePure : Obligations.ReadsArePure := by
  intro i X s hi hX
  obtain ⟨t, _, _, ht, _⟩ := answersOnce_exec i s
  have htblock : t.block = s.block := exec_block_of_isRead hi ht
  obtain ⟨v, hv, hvblock⟩ := runCommands_block_of_isRead hX t
  obtain ⟨t', u, r0, r1, ht', hu, hublock, hans, huq, _⟩ :=
    answersAlike_exec (htblock.symm.trans hvblock.symm) i
  obtain rfl := Host.Outcome.next.inj (ht.symm.trans ht')
  refine ⟨t, u, r0, r1, ht, htblock, hans, ?_, hublock.symm.trans htblock, by simp [huq]⟩
  rw [runCommands_programWords_append hv, runCommands_programWords_cons hu]
  rfl

/-- Settles O41: both CONFIGURE and RESET leave `REM = INIT`, which CHECKSUM then reads. -/
theorem emptyInputChecksum : Obligations.EmptyInputChecksum := by
  refine ⟨fun p s hm hp => ?configure, fun s e ⟨_, hfit, _⟩ he => ?reset, by decide, by decide, by decide, by decide⟩
  case configure =>
    obtain ⟨t, h, hblock, hans⟩ := exec_configure_block hm hp
    have he : t.engine? = some ⟨p, p.init⟩ := by rw [State.engine?, hblock]
    exact runCommands_then_read h hans he readsOut_checksum
  case reset =>
    obtain ⟨t, h, hte, hans⟩ := writesRem_reset s e he
    obtain ⟨hp, _⟩ := (engineFits_iff e).mp ((registersFit_iff s).mp hfit e he)
    simp only [init_and_mask hp] at hte
    exact runCommands_then_read h hans hte readsOut_checksum

/-- Settles O36: CHECKSUM only reads, and the value it reads is `finalValue`. -/
theorem checksumReadsFinalValue : Obligations.ChecksumReadsFinalValue :=
  ⟨rfl, refusedUnconfigured_of_readOut exec_checksum, readsOut_checksum⟩

/-- Settles O37: the three commands only read, and RESET_INIT before the second writes `REM` alone. -/
theorem getParameterWords : Obligations.GetParameterWords := by
  have hinit := readsOut_of_readOut exec_getInitialRemainder
  refine ⟨⟨rfl, refusedUnconfigured_of_readOut exec_getTruncatedPolynomial,
      readsOut_of_readOut exec_getTruncatedPolynomial⟩,
    ⟨rfl, refusedUnconfigured_of_readOut exec_getInitialRemainder, hinit, fun r s e he => ?_⟩,
    ⟨rfl, refusedUnconfigured_of_readOut exec_getFinalXorValue, readsOut_of_readOut exec_getFinalXorValue⟩⟩
  obtain ⟨t, h, hte, hans⟩ := writesRem_resetInit r s e he
  exact runCommands_then_read h hans hte hinit

/-- Settles O38: both commands only read their flag, zero-extended. -/
theorem getReflectionFlags : Obligations.GetReflectionFlags :=
  ⟨⟨rfl, refusedUnconfigured_of_readOut exec_getReflectInput, readsOut_of_readOut exec_getReflectInput⟩,
    ⟨rfl, refusedUnconfigured_of_readOut exec_getReflectRemainder,
      readsOut_of_readOut exec_getReflectRemainder⟩⟩

/-- Settles O39: both commands only read, and registers that fit are masked, with a width in R111's range. -/
theorem getRemainderAndBitCount : Obligations.GetRemainderAndBitCount := by
  refine ⟨⟨rfl, refusedUnconfigured_of_readOut exec_getInterimRemainder,
      readsOut_of_readOut exec_getInterimRemainder⟩,
    ⟨rfl, refusedUnconfigured_of_readOut exec_getBitCount, ?bitCount⟩, fun s e ⟨_, hfit, _⟩ he => ?bounds⟩
  case bitCount =>
    simp only [BitVec.ofNat_toNat]
    exact readsOut_of_readOut exec_getBitCount
  case bounds =>
    obtain ⟨hparams, hrem⟩ := (engineFits_iff e).mp ((registersFit_iff s).mp hfit e he)
    obtain ⟨hpos, hW, _⟩ := (valid_iff ..).mp hparams
    exact ⟨(and_mask_eq_self hW hrem).symm, hpos, hW⟩

end Sys2Proof.Machine

/-! PROOF. Errors and the two modes of a block (60_exceptions.md R145, R147, R152): a command other than CONFIGURE is one
function of the registers, with a status its operands decide, and NOT_CONFIGURED where there are no registers. So the
statuses come in R147's order, and a FIXED block answers like its PROGRAMMABLE twin, whose registers are the same. -/

namespace Sys2Proof.Machine

/-! ### A command other than CONFIGURE is a function of the registers -/

/-- The status of a command other than CONFIGURE in a configured block: its operand check alone decides it (R143). -/
def operandStatus (i : Instr) : Status :=
  match i with
  | .processBits _ n => if 8 < n.toNat then .bitCountOutOfRange else .ok
  | _ => .ok

/-- A command that only reads writes `REM` with the value it holds. -/
theorem readOut_eq_withEngine (op f) (s : State) :
    readOut op f s = withEngine op (fun e => (s.setRem e.rem).respond op .ok (f e)) s := by
  cases he : s.engine? with
  | none => rw [readOut_none op f he, withEngine_none op _ he]
  | some e => rw [readOut_some op f he, withEngine_some op _ he, setRem_self he]

/-- A count out of range writes `REM` with the value it holds (R121). -/
theorem exec_processBits_eq_withEngine (v n) (s : State) :
    exec (.processBits v n) s = withEngine 0x4#4 (fun e =>
      (s.setRem (if 8 < n.toNat then e.rem else
        feed e.params.width.toNat e.params.poly e.rem v n.toNat e.params.refin)).respond
          0x4#4 (operandStatus (.processBits v n)) 0#64) s := by
  rcases exec_processBits_cases v n s with ⟨he, h⟩ | ⟨e, he, hn, h⟩ | ⟨e, he, hn, h⟩
  · rw [h, withEngine_none _ _ he]
  · rw [h, withEngine_some _ _ he, operandStatus, if_neg hn.not_gt, if_neg hn.not_gt]
  · rw [h, withEngine_some _ _ he, operandStatus, if_pos hn, if_pos hn, setRem_self he]

section
variable {i : Instr} (hi : ∀ w ri ro p ini x, i ≠ .configure w ri ro p ini x)
include hi

/-- On registers `e`, the command leaves `REM = v e` and answers with the data word `d e`. -/
theorem exec_eq_withEngine : ∃ v d : Engine → Word, ∀ s, exec i s =
    withEngine i.op (fun e => (s.setRem (v e)).respond i.op (operandStatus i) (d e)) s := by
  cases i with
  | configure w ri ro p ini x => exact absurd rfl (hi w ri ro p ini x)
  | processBits v n => exact ⟨_, fun _ => 0#64, exec_processBits_eq_withEngine v n⟩
  | reset | resetInit _ | processBit _ | processByte _ => exact ⟨_, fun _ => 0#64, fun _ => rfl⟩
  | checksum | getTruncatedPolynomial | getInitialRemainder | getFinalXorValue | getReflectInput
  | getReflectRemainder | getInterimRemainder | getBitCount =>
    exact ⟨fun e => e.rem, _, readOut_eq_withEngine _ _⟩

/-- R145, for every command but CONFIGURE. -/
theorem refusedUnconfigured_of_not_configure : RefusedUnconfigured i (rsp0 i.op .notConfigured) := by
  obtain ⟨v, d, hexec⟩ := exec_eq_withEngine hi
  exact fun s he => ⟨_, (hexec s).trans (withEngine_none _ _ he), rfl, answered_respond ..⟩

/-- R147, for every command but CONFIGURE: NOT_CONFIGURED comes before the operand check. -/
theorem exec_status_of_not_configure (s : State) :
    ∃ t data, exec i s = .next t ∧
      Answered s t (rsp0 i.op (if s.cfgValid then operandStatus i else .notConfigured)) data := by
  obtain ⟨v, d, hexec⟩ := exec_eq_withEngine hi
  cases he : s.engine? with
  | none =>
    obtain ⟨t, h, _, hans⟩ := refusedUnconfigured_of_not_configure hi s he
    have hc : ¬ s.cfgValid = true := by simp [State.cfgValid, he]
    exact ⟨t, _, h, by rwa [if_neg hc]⟩
  | some e =>
    have hc : s.cfgValid = true := by simp [State.cfgValid, he]
    rw [if_pos hc]
    exact ⟨_, _, (hexec s).trans (withEngine_some _ _ he), answered_setRem_respond ..⟩

end

/-- R147 for CONFIGURE: illegal in a FIXED block (R72), and only then checked for range. -/
theorem exec_configure_status (w ri ro p ini x) (s : State) :
    ∃ t data, exec (.configure w ri ro p ini x) s = .next t ∧
      Answered s t (rsp0 0x1#4 (if s.mode ≠ .programmable then .illegalCommand
        else if valid w p ini x then .ok else .parameterOutOfRange)) data := by
  rcases exec_configure_cases w ri ro p ini x s with ⟨q, hm, h⟩ | ⟨hm, hv, h⟩ | ⟨hm, hv, h⟩
  · rw [if_pos (by simp [hm])]
    exact ⟨_, _, h, answered_respond ..⟩
  · rw [if_neg (by simp [hm]), if_pos hv]
    exact ⟨_, _, h, answered_load_respond ..⟩
  · rw [if_neg (by simp [hm]), if_neg (by simp [hv])]
    exact ⟨_, _, h, answered_respond ..⟩

theorem operandStatus_ne_notConfigured (i : Instr) : operandStatus i ≠ .notConfigured := by
  unfold operandStatus
  split
  · split <;> decide
  · decide

theorem statusCode_eq_notConfigured {st : Status} (h : statusCode st = 0x04#8) : st = .notConfigured := by
  revert h
  cases st <;> decide

/-- `CFG_VALID = 1` rules out NOT_CONFIGURED (R145). -/
theorem exec_status_of_cfgValid {s : State} (hs : s.cfgValid = true) (i : Instr) :
    ∃ t st d, exec i s = .next t ∧ Answered s t (rsp0 i.op st) d ∧ st ≠ .notConfigured := by
  by_cases hi : ∀ w ri ro p ini x, i ≠ .configure w ri ro p ini x
  · obtain ⟨t, d, h, hans⟩ := exec_status_of_not_configure hi s
    rw [if_pos hs] at hans
    exact ⟨t, _, d, h, hans, operandStatus_ne_notConfigured i⟩
  · push Not at hi
    obtain ⟨w, ri, ro, p, ini, x, rfl⟩ := hi
    obtain ⟨t, d, h, hans⟩ := exec_configure_status w ri ro p ini x s
    refine ⟨t, _, d, h, hans, ?_⟩
    split
    · decide
    · split <;> decide

/-! ### A FIXED block and its PROGRAMMABLE twin (R152) -/

/-- `f` is FIXED with the valid parameters that `g` is configured with, and `REM` is the same. -/
abbrev RegisterTwins (f g : State) : Prop :=
  ∃ e : Engine, f.block = .fixed e.params e.rem ∧ g.block = .programmable (some e) ∧ paramsValid e.params = true

/-- The outcomes of a command on `f` and on `g`: twin registers and the same response. -/
abbrev AnswersAsTwins (f g : State) (o o' : Out) : Prop :=
  ∃ t u r0 r1, o = .next t ∧ o' = .next u ∧ RegisterTwins t u ∧ Answered f t r0 r1 ∧ Answered g u r0 r1

section
variable {f g : State}

theorem RegisterTwins.engine?_eq (h : RegisterTwins f g) : g.engine? = f.engine? := by
  obtain ⟨e, hf, hg, _⟩ := h
  simp [State.engine?, hf, hg]

/-- A twin of an existing block exists: the parameters are valid. -/
theorem RegisterTwins.elaborated_eq (h : RegisterTwins f g) (depth : Nat) :
    elaborated g.mode depth = elaborated f.mode depth := by
  obtain ⟨e, hf, hg, hp⟩ := h
  simp [State.mode, elaborated, hf, hg, hp]

theorem RegisterTwins.setRem (h : RegisterTwins f g) (v : Word) : RegisterTwins (f.setRem v) (g.setRem v) := by
  obtain ⟨e, hf, hg, hp⟩ := h
  exact ⟨{ e with rem := v }, by simp [State.setRem, hf], by simp [State.setRem, hg], hp⟩

theorem answersAsTwins_exec {i : Instr} (hi : ∀ w ri ro p ini x, i ≠ .configure w ri ro p ini x)
    (h : RegisterTwins f g) : AnswersAsTwins f g (exec i f) (exec i g) := by
  obtain ⟨v, d, hexec⟩ := exec_eq_withEngine hi
  obtain ⟨e, hfe⟩ : ∃ e, f.engine? = some e := by
    obtain ⟨e, hf, _⟩ := h
    exact ⟨e, by rw [State.engine?, hf]⟩
  rw [hexec, hexec, withEngine_some _ _ hfe, withEngine_some _ _ (h.engine?_eq.trans hfe)]
  exact ⟨_, _, _, _, rfl, rfl, h.setRem (v e), answered_setRem_respond .., answered_setRem_respond ..⟩

/-- An illegal command writes nothing in either mode. -/
theorem answersAsTwins_runCommand {ws : List Word} (hws : isConfigure ws = false) (h : RegisterTwins f g) :
    AnswersAsTwins f g (runCommand ws f) (runCommand ws g) := by
  cases hdec : decode ws with
  | error err =>
    simp only [runCommand, hdec]
    exact ⟨_, _, _, _, rfl, rfl, h, answered_respond .., answered_respond ..⟩
  | ok i =>
    rw [runCommand_of_decode hdec, runCommand_of_decode hdec]
    refine answersAsTwins_exec ?_ h
    rintro w ri ro p ini x rfl
    simp [isConfigure, hdec] at hws

/-- Whole programs: the same words of response behind what each queue holds. -/
theorem runCommands_twins {S : List (List Word)} (hS : ∀ ws ∈ S, isConfigure ws = false)
    (h : RegisterTwins f g) :
    ∃ t u new, runCommands S f = .next t ∧ runCommands S g = .next u ∧ RegisterTwins t u ∧
      t.rspQueue = f.rspQueue ++ new ∧ u.rspQueue = g.rspQueue ++ new := by
  induction S generalizing f g with
  | nil => exact ⟨f, g, [], rfl, rfl, h, by simp, by simp⟩
  | cons ws S ih =>
    rw [List.forall_mem_cons] at hS
    obtain ⟨hws, hS⟩ := hS
    obtain ⟨f', g', r0, r1, hf', hg', h', ⟨hfq, _⟩, ⟨hgq, _⟩⟩ := answersAsTwins_runCommand hws h
    obtain ⟨t, u, new, ht, hu, htu, htq, huq⟩ := ih hS h'
    refine ⟨t, u, r0 :: r1 :: new, ?_, ?_, htu, by simp [htq, hfq], by simp [huq, hgq]⟩
    · simp only [runCommands, hf', ht]
    · simp only [runCommands, hg', hu]

end

/-! ### The move a step carries out -/

section
variable {s : State} {m : HostMove} {rest : List HostMove}

theorem stepHost_of_done (hh : s.host = []) : stepHost s = .fault (waiting s) := by
  simp only [stepHost, hh]

variable (hh : s.host = m :: rest)
include hh

theorem stepHost_of_enabled (hm : enabled m s = true) : stepHost s = hostMove m { s with host := rest } := by
  simp only [stepHost, hh, hm, if_true]

theorem stepHost_of_waiting (hm : enabled m s = false) {q : HostMove × List HostMove}
    (hn : nextOther m rest = some q) : stepHost s = hostMove q.1 { s with host := m :: q.2 } := by
  simp only [stepHost, hh, hm, hn, Bool.false_eq_true, if_false]

theorem stepHost_of_stuck (hm : enabled m s = false) (hn : nextOther m rest = none) :
    stepHost s = .fault (blockedBy m) := by
  simp only [stepHost, hh, hm, hn, Bool.false_eq_true, if_false]

end

/-- Which move the host's script offers next, or why there is none, does not depend on the registers. -/
theorem stepHost_withBlock (s : State) :
    (∃ m rest, m ∈ s.host ∧
      ∀ b, stepHost { s with block := b } = hostMove m { s with block := b, host := rest }) ∨
    (∃ r, ∀ b, stepHost { s with block := b } = .fault r) := by
  cases s.host with
  | nil => exact .inr ⟨waiting s, fun _ => stepHost_of_done rfl⟩
  | cons m rest =>
    have hen : ∀ b, enabled m { s with block := b, host := m :: rest } = enabled m s := by
      cases m <;> exact fun _ => rfl
    cases he : enabled m s with
    | true => exact .inl ⟨m, rest, by simp, fun b => stepHost_of_enabled rfl ((hen b).trans he)⟩
    | false =>
      cases hn : nextOther m rest with
      | none => exact .inr ⟨blockedBy m, fun b => stepHost_of_stuck rfl ((hen b).trans he) hn⟩
      | some q =>
        obtain ⟨_, a, c, hrest, _⟩ := nextOther_some (m' := q.1) (rest := q.2) hn
        exact .inl ⟨q.1, m :: q.2, by simp [hrest], fun b => stepHost_of_waiting rfl ((hen b).trans he) hn⟩

/-! ### Moves of the host on twins -/

section
variable {f g : State}

theorem twinOf_iff : TwinOf f g ↔ RegisterTwins f g ∧ g.rspDepth = f.rspDepth ∧ g.cmdBuf = f.cmdBuf ∧
    g.rspQueue = f.rspQueue ∧ g.host = f.host ∧ g.received = f.received := by
  constructor
  · rintro ⟨e, hf, hg, hp, hrest⟩
    exact ⟨⟨e, hf, hg, hp⟩, hrest⟩
  · rintro ⟨⟨e, hf, hg, hp⟩, hrest⟩
    exact ⟨e, hf, hg, hp, hrest⟩

/-- The same response queued in both leaves twins. -/
theorem twinOf_of_answersAsTwins {o o' : Out} (h : TwinOf f g) (ho : AnswersAsTwins f g o o') :
    ∃ t u, o = .next t ∧ o' = .next u ∧ TwinOf t u := by
  obtain ⟨_, hdepth, hbuf, hqueue, hhost, hreceived⟩ := twinOf_iff.mp h
  obtain ⟨t, u, r0, r1, ht, hu, htu, ⟨htq, htb, hth, htr, _, htd⟩, ⟨huq, hub, huh, hur, _, hud⟩⟩ := ho
  refine ⟨t, u, ht, hu, twinOf_iff.mpr ⟨htu, ?_, ?_, ?_, ?_, ?_⟩⟩
  · rw [hud, htd, hdepth]
  · rw [hub, htb, hbuf]
  · rw [huq, htq, hqueue]
  · rw [huh, hth, hhost]
  · rw [hur, htr, hreceived]

theorem acceptWord_twins {w : Word} (hw : isConfigure (f.cmdBuf ++ [w]) = false) (h : TwinOf f g) :
    ∃ t u, acceptWord w f = .next t ∧ acceptWord w g = .next u ∧ TwinOf t u := by
  obtain ⟨e, hf, hg, hp, hdepth, hbuf, hrest⟩ := h
  cases hc : isComplete (f.cmdBuf ++ [w]) with
  | true =>
    simp only [acceptWord, hbuf, hc, if_true]
    have h' : TwinOf { f with cmdBuf := [] } { g with cmdBuf := [] } := ⟨e, hf, hg, hp, hdepth, rfl, hrest⟩
    exact twinOf_of_answersAsTwins h' (answersAsTwins_runCommand hw (twinOf_iff.mp h').1)
  | false =>
    simp only [acceptWord, hbuf, hc, Bool.false_eq_true, if_false]
    exact ⟨_, _, rfl, rfl, e, hf, hg, hp, hdepth, rfl, hrest⟩

theorem hostMove_twins {m : HostMove} (hm : m ≠ .rst)
    (hw : ∀ w, m = .send w → isConfigure (f.cmdBuf ++ [w]) = false) (h : TwinOf f g) :
    ∃ t u, hostMove m f = .next t ∧ hostMove m g = .next u ∧ TwinOf t u := by
  cases m with
  | send w => exact acceptWord_twins (hw w rfl) h
  | take =>
    obtain ⟨e, hf, hg, hp, hdepth, hbuf, hqueue, hhost, hreceived⟩ := h
    refine ⟨_, _, rfl, rfl, e, hf, hg, hp, hdepth, hbuf, ?_, hhost, ?_⟩
    · rw [takeWord_rspQueue, takeWord_rspQueue, hqueue]
    · rw [takeWord_received, takeWord_received, hqueue, hreceived]
  | rst => exact absurd rfl hm

theorem TwinOf.eq_withBlock (h : TwinOf f g) : g = { f with block := g.block } := by
  obtain ⟨_, _, _, _, hdepth, hbuf, hqueue, hhost, hreceived⟩ := h
  rw [← hdepth, ← hbuf, ← hqueue, ← hhost, ← hreceived]

/-- A step of twins carries out the same move on both, or stops both alike. -/
theorem step_twins (h : TwinOf f g) (hrst : HostMove.rst ∉ f.host)
    (hconf : ∀ w, HostMove.send w ∈ f.host → isConfigure (f.cmdBuf ++ [w]) = false) :
    (∃ t u, step f = .next t ∧ step g = .next u ∧ TwinOf t u) ∨
    (step g = step f ∧ ∀ t, step f ≠ .next t) := by
  have hblock : g = { f with block := g.block } := h.eq_withBlock
  have helab : elaborated g.mode g.rspDepth = elaborated f.mode f.rspDepth := by
    obtain ⟨hregs, hdepth, _⟩ := twinOf_iff.mp h
    rw [hdepth, hregs.elaborated_eq]
  cases hel : elaborated f.mode f.rspDepth with
  | false =>
    rw [step_of_not_elaborated hel, step_of_not_elaborated (helab.trans hel)]
    exact .inr ⟨rfl, nofun⟩
  | true =>
    have hstepf : step f = stepHost f := if_pos hel
    have hstepg : step g = stepHost g := if_pos (helab.trans hel)
    rw [hstepf, hstepg, hblock]
    rcases stepHost_withBlock f with ⟨m, rest, hmem, hmove⟩ | ⟨r, hstop⟩
    · obtain ⟨e, hf, hg, hp, _⟩ := h
      have h' : TwinOf { f with host := rest } { f with block := g.block, host := rest } :=
        ⟨e, hf, hg, hp, rfl, rfl, rfl, rfl, rfl⟩
      obtain ⟨t, u, ht, hu, htu⟩ := hostMove_twins (f := { f with host := rest })
        (ne_of_mem_of_not_mem hmem hrst) (fun w hw => hconf w (hw ▸ hmem)) h'
      exact .inl ⟨t, u, (hmove f.block).trans ht, (hmove g.block).trans hu, htu⟩
    · have hf : stepHost f = .fault r := hstop f.block
      rw [hf, hstop g.block]
      exact .inr ⟨rfl, nofun⟩

end

/-! ### The statements -/

/-- Settles O49: twins make the same move, or stop alike. -/
theorem modeParityOfSteps : Obligations.ModeParityOfSteps := by
  intro f g h hrst hconf
  rcases step_twins h hrst hconf with ⟨t, u, ht, hu, htu⟩ | ⟨heq, hstop⟩
  · rw [ht, hu]
    refine ⟨fun t' ht' => ⟨u, rfl, ?_⟩, fun r => iff_of_false nofun nofun, fun r => iff_of_false nofun nofun⟩
    obtain rfl := Host.Outcome.next.inj ht'
    exact htu
  · rw [heq]
    exact ⟨fun t ht => absurd ht (hstop t), fun _ => Iff.rfl, fun _ => Iff.rfl⟩

/-- Settles O50: after the CONFIGURE the PROGRAMMABLE block has the registers of the FIXED one at power-on, and one response
queued before it. -/
theorem modeParityOfPrograms : Obligations.ModeParityOfPrograms := by
  intro p d S hp hS
  obtain ⟨g, hg, hblock, hgq, _⟩ := exec_configure_block (s := State.powerOn .programmable d) rfl hp
  have h : RegisterTwins (State.powerOn (.fixed p) d) g := ⟨⟨p, p.init⟩, rfl, hblock, hp⟩
  obtain ⟨t, u, new, ht, hu, htu, htq, huq⟩ := runCommands_twins hS h
  refine ⟨t, u, ht, ?_, ?_, htu.engine?_eq⟩
  · simp only [runCommands, runCommand_encode, hg, hu]
  · rw [huq, hgq, htq]
    rfl

/-- Settles O44: words that do not decode are illegal; those that do run CONFIGURE, or a command whose operand check comes
after the test of `CFG_VALID`. -/
theorem statusPriority : Obligations.StatusPriority := by
  intro h ops s _
  rcases runCommand_cases (h :: ops) s with ⟨i, hi, hrun⟩ | ⟨e, he, hrun⟩
  · rw [hi, hrun, fieldOp_of_decode hi]
    cases i with
    | configure w ri ro p ini x => exact exec_configure_status w ri ro p ini x s
    | processBits v n =>
      obtain ⟨t, d, h, hans⟩ := exec_status_of_not_configure (i := .processBits v n) (by simp) s
      refine ⟨t, d, h, ?_⟩
      cases hc : s.cfgValid <;> rwa [hc] at hans
    | _ => exact exec_status_of_not_configure (by simp) s
  · rw [he]
    exact ⟨_, _, hrun, answered_respond ..⟩

/-- Settles O43: outside CONFIGURE no registers means NOT_CONFIGURED, and a FIXED block has registers from power-on. -/
theorem unconfiguredRefusesAllButConfigure : Obligations.UnconfiguredRefusesAllButConfigure := by
  refine ⟨fun i s _ hs hi => ?unconfigured, fun i s q hm => ?fixed⟩
  case unconfigured =>
    have he : s.engine? = none := by simpa [State.cfgValid] using hs
    exact refusedUnconfigured_of_not_configure hi s he
  case fixed =>
    obtain ⟨t, st, d, h, hans, hst⟩ := exec_status_of_cfgValid (cfgValid_of_fixed hm) i
    refine ⟨t, _, d, h, hans, ?_⟩
    rw [rsp0_status]
    exact hst ∘ statusCode_eq_notConfigured

end Sys2Proof.Machine

/-! PROOF. Reset, flow control and the host (70_reset_and_hazards.md R160, R165, R168, R170): what a run comes to is a
function of the registers and of the words sent, in whatever steps the words and the responses pass the two channels. -/

namespace Sys2Proof.Machine

/-! ### The words of a command, as they arrive (R63) -/

theorem isComplete_append {xs : List Word} (h : isComplete xs = true) (ys : List Word) :
    isComplete (xs ++ ys) = true := by
  cases xs with
  | nil => cases h
  | cons hd ops =>
    simp only [List.cons_append, isComplete_cons, decide_eq_true_eq, List.length_append] at h ⊢
    omega

/-- A command without its last word is not complete. -/
theorem isComplete_init {h w : Word} {ops ws : List Word} (hlen : ops.length = operandCount h)
    (hws : h :: ops = ws ++ [w]) : isComplete ws = false := by
  cases ws with
  | nil => rfl
  | cons hd ops' =>
    obtain ⟨rfl, rfl⟩ : h = hd ∧ ops = ops' ++ [w] := List.cons.inj hws
    rw [isComplete_cons, ← hlen, List.length_append, List.length_singleton]
    exact decide_eq_false (by omega)

/-! ### Power-on reset (R37, R160) -/

theorem powerOnReset_block_of_programmable {s : State} (h : s.mode = .programmable) :
    s.powerOnReset.block = .programmable none := by
  obtain ⟨_ | _, _⟩ := s
  · rfl
  · cases h

theorem powerOnReset_block_of_fixed {s : State} {q : Params} (h : s.mode = .fixed q) :
    s.powerOnReset.block = .fixed q q.init := by
  obtain ⟨r, hblock, _⟩ := engine?_of_fixed h
  simp only [State.powerOnReset, hblock]

/-! ### Runs -/

section
variable {s t : State}

theorem run_of_step (h : step s = .next t) (n : Nat) :
    Host.Core.run Sys2Proof.core (n + 1) s = Host.Core.run Sys2Proof.core n t := by
  simp only [Host.Core.run, Host.Check.core_step, h]

theorem run_one (h : step s = .next t) : Host.Core.run Sys2Proof.core 1 s = .next t := run_of_step h 0

theorem step_of_run {n : Nat} (h : Host.Core.run Sys2Proof.core (n + 1) s = .next t) :
    ∃ u, step s = .next u ∧ Host.Core.run Sys2Proof.core n u = .next t := by
  cases hu : step s with
  | next u => exact ⟨u, rfl, (run_of_step hu n).symm.trans h⟩
  | fault r => simp [Host.Core.run, Host.Check.core_step, hu] at h
  | refused r => simp [Host.Core.run, Host.Check.core_step, hu] at h

theorem run_add {m : Nat} (h : Host.Core.run Sys2Proof.core m s = .next t) (n : Nat) :
    Host.Core.run Sys2Proof.core (m + n) s = Host.Core.run Sys2Proof.core n t := by
  induction m generalizing s with
  | zero =>
    obtain rfl := Host.Outcome.next.inj h
    rw [Nat.zero_add]
  | succ m ih =>
    obtain ⟨u, hu, hrun⟩ := step_of_run h
    rw [Nat.succ_add, run_of_step hu, ih hrun]

end

/-! ### A command reads no state but the registers (R165) -/

/-- On any state with the same registers a command writes the same registers and queues the same response. -/
theorem runCommand_congr {ws : List Word} {s s' t : State} (hblock : s.block = s'.block)
    (ht : runCommand ws s = .next t) :
    ∃ r0 r1, Answered s t r0 r1 ∧
      runCommand ws s' = .next { s' with block := t.block, rspQueue := s'.rspQueue ++ [r0, r1] } := by
  have halike : AnswersAlike s s' (runCommand ws s) (runCommand ws s') := by
    cases hdec : decode ws with
    | ok i =>
      rw [runCommand_of_decode hdec, runCommand_of_decode hdec]
      exact answersAlike_exec hblock i
    | error e =>
      simp only [runCommand, hdec]
      exact answersAlike_respond hblock ..
  obtain ⟨u, u', r0, r1, hu, hu', hblocks, hans, hqueue, hbuf, hhost, hreceived, _, hdepth⟩ := halike
  obtain rfl := Host.Outcome.next.inj (hu.symm.trans ht)
  refine ⟨r0, r1, hans, ?_⟩
  rw [hu', hblocks, ← hqueue, ← hbuf, ← hhost, ← hreceived, ← hdepth]

/-! ### The result of a run, flow control left out (R165) -/

/-- What R165 calls a result: the registers, the words of the command not yet complete, and the responses so far, taken
or not, in one list. -/
def State.result (s : State) : State :=
  { s with rspDepth := 0, rspQueue := s.received ++ s.rspQueue, host := [], received := [] }

/-- Accept command words one after another, whatever room the response queue has. -/
def acceptWords : List Word → State → Out
  | [], s => .next s
  | w :: ws, s =>
    match acceptWord w s with
    | .next t => acceptWords ws t
    | .fault r => .fault r
    | .refused r => .refused r

theorem acceptWords_append {xs : List Word} {s t : State} (h : acceptWords xs s = .next t) (ys : List Word) :
    acceptWords (xs ++ ys) s = acceptWords ys t := by
  induction xs generalizing s with
  | nil =>
    obtain rfl := Host.Outcome.next.inj h
    rfl
  | cons w xs ih =>
    cases hu : acceptWord w s with
    | next u =>
      simp only [List.cons_append, acceptWords, hu] at h ⊢
      exact ih h
    | fault r => simp [acceptWords, hu] at h
    | refused r => simp [acceptWords, hu] at h

theorem result_takeWord (s : State) : s.takeWord.result = s.result := by
  rw [State.result, takeWord_received_append_rspQueue]
  rfl

theorem runCommand_result {ws : List Word} {s t : State} (h : runCommand ws s = .next t) :
    runCommand ws s.result = .next t.result := by
  obtain ⟨r0, r1, ⟨hqueue, hbuf, _, hreceived, _⟩, hrun⟩ := runCommand_congr (s := s) (s' := s.result) rfl h
  rw [hrun]
  simp [State.result, hqueue, hbuf, hreceived]

theorem acceptWord_result {w : Word} {s t : State} (h : acceptWord w s = .next t) :
    acceptWord w s.result = .next t.result := by
  rcases acceptWord_cases w s with ⟨hc, hrun⟩ | ⟨hc, hbuf⟩
  · rw [hrun] at h
    exact (if_pos hc).trans (runCommand_result h)
  · obtain rfl := Host.Outcome.next.inj (h.symm.trans hbuf)
    exact if_neg (ne_true_of_eq_false hc)

/-- A move of the host, `rst` apart, changes the result by the word it sends, if any. -/
theorem hostMove_result {m : HostMove} {s t : State} (hm : m ≠ .rst) (h : hostMove m s = .next t) :
    acceptWords (sentWords [m]) s.result = .next t.result := by
  cases m with
  | send w => simp only [sentWords, acceptWords, acceptWord_result h]
  | take =>
    obtain rfl := Host.Outcome.next.inj h
    exact congrArg _ (result_takeWord s).symm
  | rst => exact absurd rfl hm

/-! ### The order in which a script's words are sent (R162, R168) -/

theorem acceptWord_host {w : Word} {s t : State} (h : acceptWord w s = .next t) : t.host = s.host := by
  rcases acceptWord_cases w s with ⟨_, hrun⟩ | ⟨_, hbuf⟩
  · obtain ⟨_, _, _, _, _, hhost, _⟩ := runCommand_answered (hrun.symm.trans h)
    exact hhost
  · obtain rfl := Host.Outcome.next.inj (h.symm.trans hbuf)
    rfl

theorem hostMove_host {m : HostMove} {s t : State} (h : hostMove m s = .next t) : t.host = s.host := by
  cases m with
  | send w => exact acceptWord_host h
  | take | rst =>
    obtain rfl := Host.Outcome.next.inj h
    rfl

theorem sentWords_append (a b : List HostMove) : sentWords (a ++ b) = sentWords a ++ sentWords b := by
  induction a with
  | nil => rfl
  | cons m a ih => cases m <;> simp [sentWords, ih]

/-- A move goes ahead of moves of the other channel only, so where one of the two sends words the other sends none. -/
theorem sentWords_overtaking {m0 m : HostMove} {a : List HostMove} (hm0 : m0 ≠ .rst)
    (hother : sameChannel m0 m = false) (hsame : ∀ x ∈ a, sameChannel m0 x = true) :
    sentWords (m0 :: a ++ [m]) = sentWords [m] ++ sentWords (m0 :: a) := by
  rw [sentWords_append]
  cases m0 with
  | rst => exact absurd rfl hm0
  | send w =>
    have hnone : sentWords [m] = [] := by
      cases m with
      | send _ => cases hother
      | take | rst => rfl
    rw [hnone, List.append_nil, List.nil_append]
  | take =>
    have hnone : sentWords (.take :: a) = [] := by
      induction a with
      | nil => rfl
      | cons x a ih =>
        rw [List.forall_mem_cons] at hsame
        obtain ⟨hx, hsame⟩ := hsame
        cases x with
        | take => exact ih hsame
        | send _ | rst => cases hx
    rw [hnone, List.append_nil, List.nil_append]

/-- A step without an `rst` in the script carries out one move, and the word it sends is the script's first. -/
theorem step_next_sentWords {s t : State} (hrst : HostMove.rst ∉ s.host) (h : step s = .next t) :
    HostMove.rst ∉ t.host ∧ ∃ m, m ≠ .rst ∧ sentWords s.host = sentWords [m] ++ sentWords t.host ∧
      hostMove m { s with host := t.host } = .next t := by
  obtain ⟨_, m, rest, hmove, hscript⟩ := step_next h
  obtain rfl : t.host = rest := hostMove_host hmove
  rcases hscript with ⟨hhost, _⟩ | ⟨m0, a, b, hhost, hrest, _, hother, hsame⟩
  · rw [hhost, List.mem_cons, not_or] at hrst
    obtain ⟨hm, hrst⟩ := hrst
    exact ⟨hrst, m, Ne.symm hm, by rw [hhost, ← sentWords_append]; rfl, hmove⟩
  · simp only [hhost, List.mem_cons, List.mem_append, not_or] at hrst
    obtain ⟨hm0, ha, hm, hb⟩ := hrst
    refine ⟨by simp [hrest, hm0, ha, hb], m, Ne.symm hm, ?_, hmove⟩
    calc sentWords s.host
        = sentWords (m0 :: a ++ [m]) ++ sentWords b := by rw [← sentWords_append, hhost]; simp
      _ = sentWords [m] ++ sentWords t.host := by
          rw [sentWords_overtaking (Ne.symm hm0) hother hsame, hrest, ← List.cons_append, sentWords_append (m0 :: a),
            List.append_assoc]

/-- Along any run without `rst`, the result of the last state is that of the first with the words sent accepted. -/
theorem run_result {n : Nat} {s t : State} (hrst : HostMove.rst ∉ s.host)
    (h : Host.Core.run Sys2Proof.core n s = .next t) :
    ∃ ws, sentWords s.host = ws ++ sentWords t.host ∧ acceptWords ws s.result = .next t.result := by
  induction n generalizing s with
  | zero =>
    obtain rfl := Host.Outcome.next.inj h
    exact ⟨[], rfl, rfl⟩
  | succ n ih =>
    obtain ⟨u, hu, hrun⟩ := step_of_run h
    obtain ⟨hrst', m, hm, hsent, hmove⟩ := step_next_sentWords hrst hu
    obtain ⟨ws, hsent', hws⟩ := ih hrst' hrun
    have hfirst : acceptWords (sentWords [m]) s.result = .next u.result :=
      hostMove_result (s := { s with host := u.host }) hm hmove
    exact ⟨sentWords [m] ++ ws, by rw [hsent, hsent', List.append_assoc],
      (acceptWords_append hfirst ws).trans hws⟩

/-- A finished run has sent every word of its script. -/
theorem finished_result {n : Nat} {s t : State} (hrst : HostMove.rst ∉ s.host)
    (h : Host.Core.run Sys2Proof.core n s = .next t) (hhost : t.host = []) :
    acceptWords (sentWords s.host) s.result = .next t.result := by
  obtain ⟨ws, hsent, hws⟩ := run_result hrst h
  rw [hsent, hhost, sentWords, List.append_nil, hws]

/-! ### Steps of the host, one channel at a time (R168) -/

theorem room_of_rspQueue_eq_nil {s : State} (helab : elaborated s.mode s.rspDepth = true) (h : s.rspQueue = []) :
    s.room = true := by
  have := depth_pos_of_elaborated helab
  rw [room_iff, h, List.length_nil]
  omega

/-- Words that do not complete a command join the command buffer, a step each. -/
theorem run_sends_incomplete {s : State} {ws : List Word} {rest : List HostMove}
    (helab : elaborated s.mode s.rspDepth = true) (hroom : s.room = true)
    (hc : isComplete (s.cmdBuf ++ ws) = false) (hhost : s.host = ws.map HostMove.send ++ rest) :
    Host.Core.run Sys2Proof.core ws.length s = .next { s with cmdBuf := s.cmdBuf ++ ws, host := rest } := by
  induction ws generalizing s with
  | nil =>
    obtain rfl : s.host = rest := hhost
    rw [List.append_nil]
    rfl
  | cons w ws ih =>
    rw [List.append_cons] at hc ⊢
    have hfirst : isComplete (s.cmdBuf ++ [w]) = false :=
      Bool.eq_false_of_not_eq_true fun h => ne_true_of_eq_false hc (isComplete_append h ws)
    rw [List.length_cons, run_of_step (step_send_incomplete helab hroom hhost hfirst)]
    exact ih helab hroom hc rfl

theorem step_take {s : State} {r : Word} {q : List Word} {rest : List HostMove}
    (helab : elaborated s.mode s.rspDepth = true) (hqueue : s.rspQueue = r :: q) (hhost : s.host = .take :: rest) :
    step s = .next { s with rspQueue := q, host := rest, received := s.received ++ [r] } := by
  rw [step_of_enabled helab hhost (by simp [enabled, hqueue])]
  simp [hostMove, State.takeWord, hqueue]

/-- The host takes a whole response in two steps. -/
theorem run_take_response {s : State} {r0 r1 : Word} {rest : List HostMove}
    (helab : elaborated s.mode s.rspDepth = true) (hqueue : s.rspQueue = [r0, r1])
    (hhost : s.host = .take :: .take :: rest) :
    Host.Core.run Sys2Proof.core 2 s =
      .next { s with rspQueue := [], host := rest, received := s.received ++ [r0, r1] } := by
  have hfirst : step s = .next { s with rspQueue := [r1], host := .take :: rest, received := s.received ++ [r0] } :=
    step_take helab hqueue hhost
  have hsecond := step_take (s := { s with rspQueue := [r1], host := .take :: rest, received := s.received ++ [r0] })
    helab rfl rfl
  rw [List.append_assoc] at hsecond
  exact (run_of_step hfirst 1).trans (run_one hsecond)

/-- The words of a command run it, in a step each: all but the last wait in the command buffer. -/
theorem run_sends_command {s u : State} {h : Word} {ops : List Word} {rest : List HostMove}
    (helab : elaborated s.mode s.rspDepth = true) (hroom : s.room = true) (hbuf : s.cmdBuf = [])
    (hlen : ops.length = operandCount h) (hhost : s.host = (h :: ops).map HostMove.send ++ rest)
    (hu : runCommand (h :: ops) { s with cmdBuf := [], host := rest } = .next u) :
    Host.Core.run Sys2Proof.core (ops.length + 1) s = .next u := by
  obtain ⟨ws, w, hws⟩ : ∃ ws w, h :: ops = ws ++ [w] :=
    ⟨_, _, (List.dropLast_append_getLast (List.cons_ne_nil h ops)).symm⟩
  have hops : ops.length = ws.length := by simpa using congrArg List.length hws
  have hpending : isComplete (s.cmdBuf ++ ws) = false := by
    rw [hbuf]
    exact isComplete_init hlen hws
  have hcomplete : isComplete (s.cmdBuf ++ ws ++ [w]) = true := by
    rw [hbuf, List.nil_append, ← hws, isComplete_cons, hlen, decide_eq_true le_rfl]
  have hwait := run_sends_incomplete (rest := .send w :: rest) helab hroom hpending (by rw [hhost, hws]; simp)
  have hlast := step_send_complete (s := { s with cmdBuf := s.cmdBuf ++ ws, host := .send w :: rest })
    helab hroom rfl hcomplete
  have hlast' : step { s with cmdBuf := s.cmdBuf ++ ws, host := .send w :: rest } = .next u := by
    rw [hlast, hbuf, List.nil_append, ← hws, hu]
  rw [hops]
  exact (run_add hwait 1).trans (run_one hlast')

theorem step_eq_stepHost {s : State} (helab : elaborated s.mode s.rspDepth = true) : step s = stepHost s :=
  if_pos helab

theorem sameChannel_send_of_sends {a : List HostMove} (ha : ∀ x ∈ a, ∃ w', x = .send w') (w : Word) :
    ∀ x ∈ a, sameChannel (.send w) x = true := by
  intro x hx
  obtain ⟨_, rfl⟩ := ha x hx
  rfl

/-! ### Why the block waits (R165, R170) -/

theorem waiting_of_pending {s : State} (hbuf : s.cmdBuf ≠ []) : waiting s = .pendingOperands := by
  simp [waiting, hbuf]

theorem waiting_of_untaken {s : State} (hbuf : s.cmdBuf = []) (hqueue : s.rspQueue ≠ []) :
    waiting s = .untakenResponse := by
  simp [waiting, hbuf, hqueue]

theorem waiting_of_empty {s : State} (hbuf : s.cmdBuf = []) (hqueue : s.rspQueue = []) : waiting s = .quiescent := by
  simp [waiting, hbuf, hqueue]

/-! ### The statements -/

/-- Settles O57: a finished run comes to the result of its first state with all words of its script accepted, and the
two runs agree on both. -/
theorem flowControlNeverChangesResult : Obligations.FlowControlNeverChangesResult := by
  intro s s' t t' n n' hblock hbuf _ hresponses hsent hrst hrst' hrun hrun'
    ⟨hhost, _, hqueue⟩ ⟨hhost', _, hqueue'⟩
  have hstart : s.result = s'.result := by simp only [State.result, hblock, hbuf, hresponses]
  have hend : t.result = t'.result := by
    have h := finished_result hrst hrun hhost
    rw [hsent, hstart, finished_result hrst' hrun' hhost'] at h
    exact (Host.Outcome.next.inj h).symm
  have hreceived := congrArg State.rspQueue hend
  simp only [State.result, hqueue, hqueue', List.append_nil] at hreceived
  have hblocks : t.result.block = t'.result.block := congrArg State.block hend
  exact ⟨hblocks, hreceived⟩

/-- Settles O56: the send that would complete a command waits, and the first move of another channel is the one behind
the sends `a`, or there is none; a word that completes nothing does not wait. -/
theorem fullQueueHoldsTheWord : Obligations.FullQueueHoldsTheWord := by
  intro s w rest ⟨helab, _⟩ hhost hroom
  refine ⟨fun hc => ?completes, fun hc => ?incomplete⟩
  case completes =>
    have hwaits : enabled (.send w) s = false := by simp [enabled, hc, hroom]
    refine ⟨?_, fun hsends => ?_⟩
    · rintro a b m rfl ha
      have hahead : sameChannel (.send w) m = false →
          step s = hostMove m { s with host := .send w :: (a ++ b) } := fun hm =>
        (step_eq_stepHost helab).trans <| stepHost_of_waiting hhost hwaits <|
          nextOther_append hm (sameChannel_send_of_sends ha w)
      constructor <;> rintro rfl <;> exact hahead rfl
    · rw [step_eq_stepHost helab]
      exact stepHost_of_stuck hhost hwaits (nextOther_all_same (sameChannel_send_of_sends hsends w))
  case incomplete =>
    rw [step_of_enabled helab hhost (by simp [enabled, hc])]
    simp [hostMove, acceptWord, hc]

/-- Settles O58: the words run the command, whatever the host does afterwards, and two takes empty the response
queue. -/
theorem issuedCommandCompletes : Obligations.IssuedCommandCompletes := by
  intro s h ops rest helab hbuf hqueue hlen hhost
  obtain ⟨u, hu⟩ := runCommand_next (h :: ops) { s with host := rest }
  obtain ⟨r0, r1, hans, hruns⟩ := runCommand_congr (s := { s with host := rest })
    (s' := { s with cmdBuf := [], host := .take :: .take :: rest }) rfl hu
  refine ⟨u, r0, r1, hu, hans, ?_⟩
  have hsends := run_sends_command (rest := .take :: .take :: rest) helab (room_of_rspQueue_eq_nil helab hqueue) hbuf
    hlen (by rw [hhost, issue, List.append_assoc]; rfl) hruns
  obtain ⟨_, hubuf, huhost, _, humode, hudepth⟩ := hans
  have helab' : elaborated u.mode s.rspDepth = true := by
    rw [humode]
    exact helab
  have htakes := run_take_response
    (s := { s with cmdBuf := [], host := .take :: .take :: rest, block := u.block, rspQueue := s.rspQueue ++ [r0, r1] })
    helab' (by rw [hqueue, List.nil_append]) rfl
  rw [hubuf, huhost, hudepth, hbuf]
  exact (run_add hsends 2).trans htakes

/-- Settles O51: `rst` is carried out at once. -/
theorem powerOnResetClearsAll : Obligations.PowerOnResetClearsAll := by
  intro s rest helab hhost
  have hmode : ({ s with host := rest } : State).powerOnReset.mode = s.mode := powerOnReset_mode _
  refine ⟨_, step_of_enabled helab hhost rfl, rfl, rfl, ⟨hmode, rfl⟩, rfl, fun hm => ?_, fun q hm => ?_⟩
  · exact ⟨powerOnReset_cfgValid_of_programmable hm, powerOnReset_block_of_programmable hm⟩
  · exact ⟨cfgValid_of_fixed (hmode.trans hm), powerOnReset_block_of_fixed hm⟩

/-- Settles O59: the step stops for the reason `waiting` gives, which looks at the command buffer first. -/
theorem waitingReasons : Obligations.WaitingReasons := by
  intro s helab hhost
  rw [step_eq_stepHost helab, stepHost_of_done hhost]
  by_cases hbuf : s.cmdBuf = []
  · by_cases hqueue : s.rspQueue = []
    · simp [waiting_of_empty hbuf hqueue, hbuf, hqueue]
    · simp [waiting_of_untaken hbuf hqueue, hbuf, hqueue]
  · simp [waiting_of_pending hbuf, hbuf]

end Sys2Proof.Machine

/-! PROOF. The check values of the source's section 8: the remainder after "123456789" (the `REM` column of
95_test_vectors.md 1.1), then the value CHECKSUM publishes of it (R130). -/

namespace Sys2Proof.Machine

/-- The bytes of "123456789". -/
def checkInput : List Byte := [0x31#8, 0x32#8, 0x33#8, 0x34#8, 0x35#8, 0x36#8, 0x37#8, 0x38#8, 0x39#8]

theorem checkInput_remainder_umts : checkInput.foldl (bytestep 12 0x80F#64 false) 0#64 = 0xF5B#64 := by
  decide +kernel

theorem checkInput_remainder_maxim : checkInput.foldl (bytestep 16 0x8005#64 true) 0#64 = 0xBCDD#64 := by
  decide +kernel

theorem checkInput_remainder_ccitt : checkInput.foldl (bytestep 16 0x1021#64 false) 0xFFFF#64 = 0x29B1#64 := by
  decide +kernel

theorem checkInput_remainder_crc32 :
    checkInput.foldl (bytestep 32 0x04C11DB7#64 true) 0xFFFFFFFF#64 = 0x9B63D02C#64 := by
  decide +kernel

/-- Settles O24: each remainder in turn; only UMTS, MAXIM and CRC-32 reflect it, as `REFOUT` says. -/
theorem sourceCheckValues : Obligations.SourceCheckValues := by
  have humts : finalValue 12 true 0#64 0xF5B#64 = 0xDAF#64 := by decide
  have hmaxim : finalValue 16 true 0xFFFF#64 0xBCDD#64 = 0x44C2#64 := by decide
  have hccitt : finalValue 16 false 0#64 0x29B1#64 = 0x29B1#64 := by decide
  have hcrc32 : finalValue 32 true 0xFFFFFFFF#64 0x9B63D02C#64 = 0xCBF43926#64 := by decide
  exact ⟨(congrArg _ checkInput_remainder_umts).trans humts, (congrArg _ checkInput_remainder_maxim).trans hmaxim,
    (congrArg _ checkInput_remainder_ccitt).trans hccitt, (congrArg _ checkInput_remainder_crc32).trans hcrc32⟩

end Sys2Proof.Machine
